-- ==== Sys2Proof/Config.lean ====
section
/-!
DEFINITION. The parameters of 00_scope.md R5 that are widths, sizes or types. The widths and the number
of registers are `abbrev`s, because types are made of them (Sys2Proof/Word.lean). The parameters that are
values of this hardware stand where a repair may mend them: `OPCODE_MAP` in Sys2Proof/Decode.lean,
`SP_INIT`, `PC_INIT`, `REG_INIT` and `ADDR_OVERFLOW` in Sys2Proof/Machine/Params.lean.
-/
namespace Sys2Proof

/-- `XLEN`: the width of a register, of the ALU and of data, in bits (00_scope.md R5). -/
@[simp] abbrev Config.xlen : Nat := 8

/-- `NREG`: the number of general registers (00_scope.md R5; 10_state.md R13). -/
@[simp] abbrev Config.nreg : Nat := 8

/-- `AWIDTH`: the width of an address and of pc, in bits (00_scope.md R5; 92_eei_decisions.md D2). It is
that of `MEM_SIZE` cells, and here it equals `XLEN`, so that a register's value is an address as it
stands. -/
@[simp] abbrev Config.awidth : Nat := 8

/-- The 21 instructions by name (00_scope.md R2), in the order of 30_encoding.md R55's table. -/
inductive Mnemonic where
  | add | sub | mul | div | mod | inc | dec | cmp | and | not | or | xor | shl | shr
  | push | pop | prn | call | ret | ldi | halt
deriving DecidableEq, Repr

/-- The parameter `OPCODE_MAP` as a type: an opcode byte for each mnemonic (92_eei_decisions.md D1). -/
abbrev OpcodeMap := Mnemonic → BitVec Config.xlen

/-- The four instruction formats of 30_encoding.md R53. -/
inductive Format where
  /-- `N`: the opcode alone. -/
  | n
  /-- `R`: opcode, register index. -/
  | r
  /-- `RR`: opcode, two register indices. -/
  | rr
  /-- `RI`: opcode, register index, immediate. -/
  | ri
deriving DecidableEq, Repr

/-- The values the parameter `ADDR_OVERFLOW` may take (00_scope.md R5; 60_exceptions.md R99). -/
inductive AddrOverflow where
  /-- Address arithmetic is reduced mod 256. -/
  | wrap
  /-- An address that would leave 0..255 stops the model. -/
  | fault
deriving DecidableEq, Repr

/-- `MEM_SIZE`: the number of memory cells (00_scope.md R5; 20_memory.md R31). -/
def Config.memSize : Nat := 256

/-- `SP_INDEX`: the register used as the stack pointer (00_scope.md R5; 10_state.md R15). -/
def Config.spIndex : Fin Config.nreg := 7

end Sys2Proof
end

