-- ==== Sys2Proof/Word.lean ====
section
/-!
DEFINITION. The data types of the CORE's values, made of the parameters of 00_scope.md R5: a byte, an
address, and the index of a general register (10_state.md R13).
-/
namespace Sys2Proof

/-- A register value, memory cell, operand byte or ALU result: `XLEN` bits (00_scope.md R5, R7). Bit 0
is the least significant (R6). -/
abbrev Byte := BitVec Config.xlen

/-- An address and the pc: `AWIDTH` bits (00_scope.md R5). -/
abbrev Addr := BitVec Config.awidth

/-- A register that exists: `NREG` of them, indices 0 to 7 (00_scope.md R5; 10_state.md R13). -/
abbrev RegIdx := Fin Config.nreg

/-- The operand byte that names register `r` (30_encoding.md R56). -/
def regByte (r : RegIdx) : Byte := BitVec.ofNat Config.xlen r.val

end Sys2Proof
end

