-- ==== Sys2Proof/Syntax.lean ====
section
/-!
DEFINITION. The instructions as syntax: one constructor per row of spec/opcode_table.json. An operand is
the whole operand byte (30_encoding.md R53), because a byte of 8 or more is a legal word whose
execution raises IllegalRegister with that byte (R60), and CMP takes any two bytes (40_alu.md R80).
Bytes a format marks unused are no part of the instruction (30_encoding.md R58).
-/
namespace Sys2Proof

/-- The 21 instructions (00_scope.md R2). `a` is operand A, `b` operand B, `imm` the immediate
(30_encoding.md R56, R57). -/
inductive Instr where
  | add (a b : Byte)
  | sub (a b : Byte)
  | mul (a b : Byte)
  | div (a b : Byte)
  | mod (a b : Byte)
  | inc (a : Byte)
  | dec (a : Byte)
  | cmp (a b : Byte)
  | and (a b : Byte)
  | not (a : Byte)
  | or (a b : Byte)
  | xor (a b : Byte)
  | shl (a : Byte)
  | shr (a : Byte)
  | push (a : Byte)
  | pop (a : Byte)
  | prn (a : Byte)
  | call (a : Byte)
  | ret
  | ldi (a imm : Byte)
  | halt
deriving DecidableEq, Repr

end Sys2Proof
end

