-- ==== Sys2Proof/Decode.lean ====
section
/-!
DEFINITION. Decoding and encoding (30_encoding.md R51 to R62): the opcode map, the format of each
mnemonic, the decoder (total on any bytes, refusing by name) and the encoder. Both are written over
the parameter `OPCODE_MAP` (92_eei_decisions.md D1); `decode` and `encode` use this hardware's map.
-/
namespace Sys2Proof

/-- `OPCODE_MAP`: the opcode byte of each mnemonic (30_encoding.md R55). -/
def Config.opcodeMap : OpcodeMap
  | .add => 0xA0
  | .sub => 0xA1
  | .mul => 0xA2
  | .div => 0xA3
  | .mod => 0xA4
  | .inc => 0x65
  | .dec => 0x66
  | .cmp => 0xA7
  | .and => 0xA8
  | .not => 0x69
  | .or => 0xAA
  | .xor => 0xAB
  | .shl => 0xAC
  | .shr => 0xAD
  | .push => 0x45
  | .pop => 0x46
  | .prn => 0x47
  | .call => 0x50
  | .ret => 0x11
  | .ldi => 0x82
  | .halt => 0x01

/-- Every mnemonic once: the rows of the dispatch table (30_encoding.md R54, R55). -/
def Mnemonic.all : List Mnemonic :=
  [.add, .sub, .mul, .div, .mod, .inc, .dec, .cmp, .and, .not, .or, .xor, .shl, .shr,
   .push, .pop, .prn, .call, .ret, .ldi, .halt]

/-- The format of each mnemonic (30_encoding.md R53, R55). SHL and SHR have format `R`
(90_conflicts.md C9). -/
def Mnemonic.format : Mnemonic → Format
  | .add => .rr
  | .sub => .rr
  | .mul => .rr
  | .div => .rr
  | .mod => .rr
  | .inc => .r
  | .dec => .r
  | .cmp => .rr
  | .and => .rr
  | .not => .r
  | .or => .rr
  | .xor => .rr
  | .shl => .r
  | .shr => .r
  | .push => .r
  | .pop => .r
  | .prn => .r
  | .call => .r
  | .ret => .n
  | .ldi => .ri
  | .halt => .n

/-- The length in bytes of each format, opcode included (30_encoding.md R53). -/
def Format.length : Format → Nat
  | .n => 1
  | .r => 2
  | .rr => 3
  | .ri => 3

/-- The instruction of a mnemonic with operand bytes `a` and `b`; a byte the format marks unused is
dropped (30_encoding.md R58). -/
def Mnemonic.build : Mnemonic → Byte → Byte → Instr
  | .add, a, b => .add a b
  | .sub, a, b => .sub a b
  | .mul, a, b => .mul a b
  | .div, a, b => .div a b
  | .mod, a, b => .mod a b
  | .inc, a, _ => .inc a
  | .dec, a, _ => .dec a
  | .cmp, a, b => .cmp a b
  | .and, a, b => .and a b
  | .not, a, _ => .not a
  | .or, a, b => .or a b
  | .xor, a, b => .xor a b
  | .shl, a, _ => .shl a
  | .shr, a, _ => .shr a
  | .push, a, _ => .push a
  | .pop, a, _ => .pop a
  | .prn, a, _ => .prn a
  | .call, a, _ => .call a
  | .ret, _, _ => .ret
  | .ldi, a, b => .ldi a b
  | .halt, _, _ => .halt

/-- The mnemonic of an instruction. -/
def Instr.mnemonic : Instr → Mnemonic
  | .add _ _ => .add
  | .sub _ _ => .sub
  | .mul _ _ => .mul
  | .div _ _ => .div
  | .mod _ _ => .mod
  | .inc _ => .inc
  | .dec _ => .dec
  | .cmp _ _ => .cmp
  | .and _ _ => .and
  | .not _ => .not
  | .or _ _ => .or
  | .xor _ _ => .xor
  | .shl _ => .shl
  | .shr _ => .shr
  | .push _ => .push
  | .pop _ => .pop
  | .prn _ => .prn
  | .call _ => .call
  | .ret => .ret
  | .ldi _ _ => .ldi
  | .halt => .halt

/-- The operand bytes of an instruction, in ascending address order (20_memory.md R38). -/
def Instr.operandBytes : Instr → List Byte
  | .add a b => [a, b]
  | .sub a b => [a, b]
  | .mul a b => [a, b]
  | .div a b => [a, b]
  | .mod a b => [a, b]
  | .inc a => [a]
  | .dec a => [a]
  | .cmp a b => [a, b]
  | .and a b => [a, b]
  | .not a => [a]
  | .or a b => [a, b]
  | .xor a b => [a, b]
  | .shl a => [a]
  | .shr a => [a]
  | .push a => [a]
  | .pop a => [a]
  | .prn a => [a]
  | .call a => [a]
  | .ret => []
  | .ldi a imm => [a, imm]
  | .halt => []

/-- The length of an instruction, from its opcode alone (30_encoding.md R61). -/
def Instr.length (i : Instr) : Nat := i.mnemonic.format.length

/-- Why bytes are no instruction. -/
inductive DecodeError where
  /-- The opcode byte is not in the opcode map (30_encoding.md R59). -/
  | illegalOpcode (opcode : Byte)
  /-- The list ends before the instruction does. The CORE always has three bytes (R52), so this
  arises only for a list shorter than that. -/
  | truncated
deriving DecidableEq, Repr

/-- The dispatch table: the mnemonic whose opcode byte is the whole byte `op` (30_encoding.md R54). -/
def lookupOpcode (map : OpcodeMap) (op : Byte) : Option Mnemonic :=
  Mnemonic.all.find? fun m => map m == op

/-- The operand bytes of a format at the head of `bs`, and the bytes after them; an operand the
format does not have is answered as 0 and not read. -/
def takeOperands : Format → List Byte → Option (Byte × Byte × List Byte)
  | .n, bs => some (0, 0, bs)
  | .r, a :: bs => some (a, 0, bs)
  | .rr, a :: b :: bs => some (a, b, bs)
  | .ri, a :: b :: bs => some (a, b, bs)
  | .r, [] => none
  | .rr, _ => none
  | .ri, _ => none

/-- One instruction at the head of a list of bytes, under a given opcode map, with the bytes after it
(30_encoding.md R51 to R62). -/
def decodeBytesWith (map : OpcodeMap) : List Byte → Except DecodeError (Instr × List Byte)
  | [] => .error .truncated
  | op :: rest =>
    match lookupOpcode map op with
    | none => .error (.illegalOpcode op)
    | some m =>
      match takeOperands m.format rest with
      | none => .error .truncated
      | some (a, b, bs) => .ok (m.build a b, bs)

/-- The bytes of an instruction under a given opcode map (30_encoding.md R53). -/
def encodeWith (map : OpcodeMap) (i : Instr) : List Byte := map i.mnemonic :: i.operandBytes

/-- One instruction at the head of a list of bytes, under this hardware's opcode map. -/
def decodeBytes : List Byte → Except DecodeError (Instr × List Byte) :=
  decodeBytesWith Config.opcodeMap

/-- The bytes of an instruction, under this hardware's opcode map. -/
def encode : Instr → List Byte := encodeWith Config.opcodeMap

/-- What the CORE decodes from the three bytes it fetches (30_encoding.md R51, R52). -/
def decode (opcode opA opB : Byte) : Except DecodeError Instr :=
  match decodeBytes [opcode, opA, opB] with
  | .ok (i, _) => .ok i
  | .error e => .error e

/-- Byte `k` of a word of `nbits` bits numbered as spec/opcode_table.json numbers them: byte 0 is the
opcode byte at `p`, bits 7 to 0; byte 1 is bits 15 to 8; byte 2 is bits 23 to 16. -/
def wordByte (nbits w k : Nat) : Byte :=
  BitVec.ofNat Config.xlen (w % 2 ^ nbits / 2 ^ (Config.xlen * k))

/-- What the decoder reads from a word numbered as the opcode table numbers it. -/
def decodeTableWord (nbits w : Nat) : Option Instr :=
  match decode (wordByte nbits w 0) (wordByte nbits w 1) (wordByte nbits w 2) with
  | .ok i => some i
  | .error _ => none

end Sys2Proof
end

