-- ==== Sys2Proof/Machine/Params.lean ====
section
/-!
DEFINITION. The parameters of 00_scope.md R5 that are values: reset values and the treatment of
address overflow.
-/
namespace Sys2Proof

/-- `SP_INIT`: x[7] at reset (00_scope.md R5; 10_state.md R15, R30). -/
def Config.spInit : Byte := 0xF4

/-- `PC_INIT`: pc at reset (00_scope.md R5; 10_state.md R17, R30). -/
def Config.pcInit : Addr := 0x00

/-- `REG_INIT[0..6]`: x[0] to x[6] at reset. The spec gives no value (92_eei_decisions.md D6).
DESIGN CHOICE (notes/assumptions/1.md), unsafe: `State.reset` takes 0, and every statement about
reset holds for every draw. -/
def Config.regInit : Vector Byte 7 := #v[0, 0, 0, 0, 0, 0, 0]

/-- `ADDR_OVERFLOW` of this hardware (00_scope.md R5; 92_eei_decisions.md D2, D3). -/
def Config.addrOverflow : AddrOverflow := .wrap

end Sys2Proof
end

