-- ==== Sys2Proof/Machine/State.lean ====
section
/-!
DEFINITION. The machine's state as plain data (10_state.md R13 to R30; 20_memory.md R31, R32), the
state after reset (10_state.md R30; 70_reset_and_hazards.md R112), and the reasons a step can stop.
-/
namespace Sys2Proof.Machine

/-- The contents of `fault_cause` (10_state.md R23; 60_exceptions.md R94); the 2-bit code of each is
`FaultCause.code`. -/
inductive FaultCause where
  | none
  | illegalInstruction
  | divisionByZero
  | illegalRegister
deriving DecidableEq, Repr

/-- The memory's 256 cells as a canonical list of address and byte pairs: an address the list does not
hold reads 0, as every cell does when memory is constructed (20_memory.md R32, R33). -/
abbrev Memory := List Host.Cell

/-- The canonical form: addresses strictly rising and inside the address space, no cell listed at the
value an unlisted address reads as. -/
abbrev Memory.wf (m : Memory) : Prop :=
  m.Pairwise (fun c d => c.1 < d.1) ∧ ∀ c ∈ m, c.1 < Config.memSize ∧ c.2 ≠ 0

/-- Everything the spec gives the machine (10_state.md R25). -/
structure State where
  /-- x[0] to x[7]; x[7] is the stack pointer (10_state.md R13, R15). -/
  regs : Vector Byte Config.nreg
  /-- The address of the next instruction, or of the one that halted or faulted (R17, R19). -/
  pc : Addr
  /-- The running flag (R21). -/
  running : Bool
  /-- `fault_cause` (R23). -/
  faultCause : FaultCause
  /-- `fault_info` (R23). -/
  faultInfo : Byte
  /-- The memory (20_memory.md R31). -/
  mem : Memory
  /-- The output event sequence since reset, oldest first (10_state.md R28). -/
  output : List Byte
deriving DecidableEq, Repr

/-- Why the model stops without a next state. The faults of the hardware (60_exceptions.md R94) are
not here: taking one is a next state, FAULTED. -/
inductive Fault where
  /-- Raised by `stepUnder .fault` alone, that is under the model option `ADDR_OVERFLOW = fault`,
  where a computed address would leave 0..255 (60_exceptions.md R99). Safe: it stops runs the
  hardware completes. This hardware has `ADDR_OVERFLOW = wrap`, so `step` never raises it. -/
  | addressOverflow
deriving DecidableEq, Repr

/-- Why the model gives no meaning. -/
inductive Refusal where
  /-- An arm of `exec` without a meaning. Safe. No arm of this model answers with it. -/
  | notModelled (mnemonic : String)
deriving DecidableEq, Repr

/-- The state after reset, for a draw of `REG_INIT` and the memory there is (10_state.md R30;
70_reset_and_hazards.md R112). -/
def State.resetOf (draw : Vector Byte 7) (mem : Memory) : State :=
  { regs := #v[draw[0], draw[1], draw[2], draw[3], draw[4], draw[5], draw[6], Config.spInit]
    pc := Config.pcInit
    running := true
    faultCause := .none
    faultInfo := 0
    mem := mem
    output := [] }

/-- The machine right after reset, its memory just constructed: all cells 0, no image loaded
(20_memory.md R32). x[0] to x[6] hold the named value of notes/assumptions/1.md. -/
def State.reset : State := State.resetOf Config.regInit []

end Sys2Proof.Machine
end

