-- ==== Sys2Proof/Machine/Ops.lean ====
section
/-!
DEFINITION. The named operations over memory and registers, the output port, and taking a fault. The
spec has no return from a fault (60_exceptions.md R104): only reset leaves FAULTED.
-/
namespace Sys2Proof.Machine

/-- The byte at an address: the first cell listed there, else 0 (20_memory.md R33). -/
def Memory.byteAt : Memory → Nat → Byte
  | [], _ => 0
  | (b, v) :: m, a => if b = a then v else Memory.byteAt m a

/-- Put a non-zero byte in its place in the rising order. -/
def Memory.insert : Memory → Nat → Byte → Memory
  | [], a, v => [(a, v)]
  | (b, w) :: m, a, v =>
    if a < b then (a, v) :: (b, w) :: m
    else if a = b then (a, v) :: m
    else (b, w) :: Memory.insert m a v

/-- Set the byte at an address and change nothing else (20_memory.md R34). Writing 0, which an
unlisted address reads as, takes the entry away. -/
def Memory.store (m : Memory) (a : Nat) (v : Byte) : Memory :=
  if v = 0 then m.filter fun c => c.1 ≠ a else Memory.insert m a v

/-- `MemRead(addr, 1)` (00_scope.md R8; 20_memory.md R33). -/
def State.memRead (s : State) (a : Addr) : Byte := Memory.byteAt s.mem a.toNat

/-- `MemWrite(addr, 1, v)` (00_scope.md R8; 20_memory.md R34). -/
def State.memWrite (s : State) (a : Addr) (v : Byte) : State :=
  { s with mem := Memory.store s.mem a.toNat v }

/-- `x[i]` (00_scope.md R8). No register is hard-wired (10_state.md R13). -/
def State.readReg (s : State) (r : RegIdx) : Byte := s.regs[r]

/-- `x[i] <- v` (00_scope.md R8). -/
def State.writeReg (s : State) (r : RegIdx) (v : Byte) : State :=
  { s with regs := s.regs.set r v }

/-- SP, another name for x[7] (10_state.md R15). -/
def State.sp (s : State) : Byte := s.readReg Config.spIndex

/-- `SP <- v`. -/
def State.setSp (s : State) (v : Byte) : State := s.writeReg Config.spIndex v

/-- `pc <- target` (00_scope.md R8). -/
def State.setPc (s : State) (target : Addr) : State := { s with pc := target }

/-- `(pc + n) mod 256` (00_scope.md R12). -/
def State.pcPlus (s : State) (n : Nat) : Addr := s.pc + BitVec.ofNat Config.awidth n

/-- `pc <- (pc + n) mod 256` (10_state.md R18). -/
def State.advance (s : State) (n : Nat) : State := s.setPc (s.pcPlus n)

/-- `Out(v)`: one output event at the end of the sequence (42_load_io_halt.md R92). -/
def State.emit (s : State) (v : Byte) : State := { s with output := s.output ++ [v] }

/-- The address PUSH and CALL write to: the decremented SP (41_stack_control.md R83). -/
def State.pushAddr (s : State) : Addr := s.sp - 1

/-- The SP after POP and RET: the incremented SP (41_stack_control.md R83). -/
def State.popNext (s : State) : Byte := s.sp + 1

/-- Fault entry: the cause and the info are recorded, nothing else changes (60_exceptions.md R103). -/
def State.faulted (s : State) (cause : FaultCause) (info : Byte) : State :=
  { s with faultCause := cause, faultInfo := info }

/-- `raise <Fault>(info)` (00_scope.md R8; 60_exceptions.md R103): the one operation by which every
instruction and the decoder take a fault. The CORE goes on to FAULTED, a next state. -/
def takeFault (cause : FaultCause) (info : Byte) (s : State) :
    Host.Outcome State Fault Refusal :=
  .next (s.faulted cause info)

end Sys2Proof.Machine
end

