-- ==== Sys2Proof/Machine/Operands.lean ====
section
/-!
DEFINITION. The operand forms: a register index (30_encoding.md R56), checked where it is used (R60),
and an immediate, which is the operand byte itself (R57) and needs no operation.
-/
namespace Sys2Proof.Machine

/-- The register an operand byte names: 0 to 7 select x[0] to x[7], 8 to 255 select nothing
(30_encoding.md R56). -/
def regIndex? (b : Byte) : Option RegIdx :=
  if h : b.toNat < Config.nreg then some ⟨b.toNat, h⟩ else none

/-- Run `k` on the register that `b` names; a byte that names none raises IllegalRegister with that
byte (10_state.md R16; 30_encoding.md R60; 60_exceptions.md R96). -/
def withReg (b : Byte) (s : State) (k : RegIdx → Host.Outcome State Fault Refusal) :
    Host.Outcome State Fault Refusal :=
  match regIndex? b with
  | some r => k r
  | none => takeFault .illegalRegister b s

end Sys2Proof.Machine
end

