-- ==== Sys2Proof/Machine/Alu.lean ====
section
/-!
DEFINITION. The ALU instructions (40_alu.md): the step they share (R66) and the 14 meanings in the
spec's order. All arithmetic is unsigned and wraps mod 256 (00_scope.md R7, R11).
-/
namespace Sys2Proof.Machine

/-- What every meaning answers: one outcome. -/
abbrev Result := Host.Outcome State Fault Refusal

/-- `x[A] <- r; pc <- (pc + len) mod 256`, the end of R66's sequence. -/
def State.aluWrite (s : State) (r : RegIdx) (v : Byte) (len : Nat) : State :=
  (s.writeReg r v).advance len

/-- R66 for a binary operation: check A, then B; both reads come before the write. -/
def aluBinary (f : Byte → Byte → Byte) (a b : Byte) (s : State) : Result :=
  withReg a s fun ra =>
    withReg b s fun rb => .next (s.aluWrite ra (f (s.readReg ra) (s.readReg rb)) 3)

/-- R66 for a unary operation. -/
def aluUnary (f : Byte → Byte) (a : Byte) (s : State) : Result :=
  withReg a s fun ra => .next (s.aluWrite ra (f (s.readReg ra)) 2)

/-- R66 for DIV and MOD: the divisor is tested after both operand checks (60_exceptions.md R101), and
a zero divisor raises DivisionByZero with the divisor's register index (R97). -/
def aluDivide (f : Byte → Byte → Byte) (a b : Byte) (s : State) : Result :=
  withReg a s fun ra =>
    withReg b s fun rb =>
      if s.readReg rb = 0 then takeFault .divisionByZero (regByte rb) s
      else .next (s.aluWrite ra (f (s.readReg ra) (s.readReg rb)) 3)

/-- `(x + y) mod 256`, computed exactly and then reduced (R67). -/
def addByte (x y : Byte) : Byte := BitVec.ofNat Config.xlen (x.toNat + y.toNat)

/-- `(x - y) mod 256`: a negative difference d becomes d + 256 (R68). -/
def subByte (x y : Byte) : Byte := BitVec.ofInt Config.xlen ((x.toNat : Int) - (y.toNat : Int))

/-- The low byte of the 16-bit product (R69). -/
def mulByte (x y : Byte) : Byte := BitVec.ofNat Config.xlen (x.toNat * y.toNat)

/-- Floor division; only reached with a non-zero divisor (R70). -/
def divByte (x y : Byte) : Byte := BitVec.ofNat Config.xlen (x.toNat / y.toNat)

/-- The remainder; only reached with a non-zero divisor (R71). -/
def modByte (x y : Byte) : Byte := BitVec.ofNat Config.xlen (x.toNat % y.toNat)

/-- The complement within 8 bits (R77; 90_conflicts.md C5). -/
def notByte (x : Byte) : Byte := ~~~x

/-- Left by one: bit 7 is discarded, bit 0 becomes 0 (R78). -/
def shlByte (x : Byte) : Byte := x <<< 1

/-- Right by one, logical: bit 0 is discarded, bit 7 becomes 0 (R79). -/
def shrByte (x : Byte) : Byte := x >>> 1

/-- ADD (R67). -/
def execAdd (a b : Byte) (s : State) : Result := aluBinary addByte a b s

/-- SUB (R68). -/
def execSub (a b : Byte) (s : State) : Result := aluBinary subByte a b s

/-- MUL (R69). -/
def execMul (a b : Byte) (s : State) : Result := aluBinary mulByte a b s

/-- DIV (R70). -/
def execDiv (a b : Byte) (s : State) : Result := aluDivide divByte a b s

/-- MOD (R71). -/
def execMod (a b : Byte) (s : State) : Result := aluDivide modByte a b s

/-- INC (R72). -/
def execInc (a : Byte) (s : State) : Result := aluUnary (fun x => addByte x 1) a s

/-- DEC (R73). -/
def execDec (a : Byte) (s : State) : Result := aluUnary (fun x => subByte x 1) a s

/-- AND (R74). -/
def execAnd (a b : Byte) (s : State) : Result := aluBinary (fun x y => x &&& y) a b s

/-- OR (R75). -/
def execOr (a b : Byte) (s : State) : Result := aluBinary (fun x y => x ||| y) a b s

/-- XOR (R76). -/
def execXor (a b : Byte) (s : State) : Result := aluBinary (fun x y => x ^^^ y) a b s

/-- NOT (R77). -/
def execNot (a : Byte) (s : State) : Result := aluUnary notByte a s

/-- SHL (R78). -/
def execShl (a : Byte) (s : State) : Result := aluUnary shlByte a s

/-- SHR (R79). -/
def execShr (a : Byte) (s : State) : Result := aluUnary shrByte a s

/-- CMP (R80): neither operand is read or checked, only pc moves (92_eei_decisions.md D11). -/
def execCmp (_a _b : Byte) (s : State) : Result := .next (s.advance 3)

end Sys2Proof.Machine
end

