-- ==== Sys2Proof/Machine/Flags.lean ====
section
/-!
DEFINITION. Status: the running flag, the fault codes and the control state. The CORE has no condition
codes and no flags register, so no instruction computes a flag (10_state.md R22).
-/
namespace Sys2Proof.Machine

/-- `running <- 0` (00_scope.md R8; 42_load_io_halt.md R93). -/
def State.stop (s : State) : State := { s with running := false }

/-- The 2-bit code of a fault cause (10_state.md R23; 60_exceptions.md R94). -/
def FaultCause.code : FaultCause → BitVec 2
  | .none => 0
  | .illegalInstruction => 1
  | .divisionByZero => 2
  | .illegalRegister => 3

/-- The control states (10_state.md R24). -/
inductive Control where
  | running
  | halted
  | faulted
deriving DecidableEq, Repr

/-- The control state, derived from the state bits (10_state.md R24). HALTED and FAULTED cannot both
hold in a state the machine reaches. -/
def State.control (s : State) : Control :=
  if s.running then
    if s.faultCause = .none then .running else .faulted
  else .halted

end Sys2Proof.Machine
end

