-- ==== Sys2Proof/Machine/LoadIoHalt.lean ====
section
/-!
DEFINITION. LDI, PRN and HALT (42_load_io_halt.md).
-/
namespace Sys2Proof.Machine

/-- LDI (R90): every immediate is legal. -/
def execLdi (a imm : Byte) (s : State) : Result :=
  withReg a s fun ra => .next ((s.writeReg ra imm).advance 3)

/-- PRN (R91): one output event, x[A]. -/
def execPrn (a : Byte) (s : State) : Result :=
  withReg a s fun ra => .next ((s.emit (s.readReg ra)).advance 2)

/-- HALT (R93): `running` is cleared and pc is left as it is (90_conflicts.md C4). -/
def execHalt (s : State) : Result := .next s.stop

end Sys2Proof.Machine
end

