-- ==== Sys2Proof/Machine/Stack.lean ====
section
/-!
DEFINITION. PUSH, POP, CALL and RET (41_stack_control.md). Each body follows the rule's pseudocode
statement by statement, in its order (00_scope.md R8), which settles operand A = 7
(92_eei_decisions.md D16).
-/
namespace Sys2Proof.Machine

/-- PUSH (R84): the byte written is x[A] after SP is decremented. -/
def execPush (a : Byte) (s : State) : Result :=
  withReg a s fun ra =>
    let s1 := s.setSp s.pushAddr
    .next ((s1.memWrite s1.sp (s1.readReg ra)).advance 2)

/-- POP (R85): x[A] is written first, and then x[7] is incremented. -/
def execPop (a : Byte) (s : State) : Result :=
  withReg a s fun ra =>
    let s1 := s.writeReg ra (s.memRead s.sp)
    .next ((s1.setSp s1.popNext).advance 2)

/-- CALL (R86): the return address is that of the pc before the jump; the target is x[A] after SP is
decremented. -/
def execCall (a : Byte) (s : State) : Result :=
  withReg a s fun ra =>
    let s1 := s.setSp s.pushAddr
    .next ((s1.memWrite s1.sp (s.pcPlus 2)).setPc (s1.readReg ra))

/-- RET (R87). -/
def execRet (s : State) : Result :=
  let s1 := s.setPc (s.memRead s.sp)
  .next (s1.setSp s1.popNext)

end Sys2Proof.Machine
end

