-- ==== Sys2Proof/Machine/Fetch.lean ====
section
/-!
DEFINITION. The step of a RUNNING CORE (70_reset_and_hazards.md R116): fetch three bytes, decode,
dispatch; the model option `ADDR_OVERFLOW = fault` beside it (60_exceptions.md R99); and the placing of
a word where the next fetch reads.
-/
namespace Sys2Proof.Machine

/-- The instruction latch, a value that lives within one step (10_state.md R27). -/
structure Latch where
  opcode : Byte
  opA : Byte
  opB : Byte
deriving DecidableEq, Repr

/-- The three reads of every fetch (30_encoding.md R51, R52). -/
def fetch (s : State) : Latch :=
  { opcode := s.memRead s.pc
    opA := s.memRead (s.pcPlus 1)
    opB := s.memRead (s.pcPlus 2) }

/-- Decode the latch and run the instruction; an opcode that is not in the map raises
IllegalInstruction before any operand is looked at (60_exceptions.md R95, R101). The other decoding
error cannot arise from three bytes. -/
def runLatch (l : Latch) (s : State) : Host.Outcome State Fault Refusal :=
  match decode l.opcode l.opA l.opB with
  | .ok i => exec i s
  | .error _ => takeFault .illegalInstruction l.opcode s

/-- R99: an operand fetch at p + 1 or p + 2 would leave 0..255. -/
def fetchLeaves (s : State) : Bool := 255 < s.pc.toNat + 2

/-- The decremented SP would be below 0. -/
def spDecLeaves (s : State) : Bool := s.sp = 0

/-- The incremented SP would be above 255. -/
def spIncLeaves (s : State) : Bool := s.sp = 255

/-- `pc + n` would be above 255. -/
def pcLeaves (n : Nat) (s : State) : Bool := 255 < s.pc.toNat + n

/-- R99: an address the instruction itself computes (the pc's advance, CALL's return address, SP - 1
or SP + 1) would leave 0..255. For POP the incremented value is x[7] after x[A] is written (R85). -/
def execLeaves (i : Instr) (s : State) : Bool :=
  match i with
  | .add _ _ => pcLeaves 3 s
  | .sub _ _ => pcLeaves 3 s
  | .mul _ _ => pcLeaves 3 s
  | .div _ _ => pcLeaves 3 s
  | .mod _ _ => pcLeaves 3 s
  | .inc _ => pcLeaves 2 s
  | .dec _ => pcLeaves 2 s
  | .cmp _ _ => pcLeaves 3 s
  | .and _ _ => pcLeaves 3 s
  | .not _ => pcLeaves 2 s
  | .or _ _ => pcLeaves 3 s
  | .xor _ _ => pcLeaves 3 s
  | .shl _ => pcLeaves 2 s
  | .shr _ => pcLeaves 2 s
  | .push _ => spDecLeaves s || pcLeaves 2 s
  | .pop a =>
    match regIndex? a with
    | some ra => spIncLeaves (s.writeReg ra (s.memRead s.sp)) || pcLeaves 2 s
    | none => false
  | .prn _ => pcLeaves 2 s
  | .call _ => spDecLeaves s || pcLeaves 2 s
  | .ret => spIncLeaves s
  | .ldi _ _ => pcLeaves 3 s
  | .halt => false

/-- The addresses the decoded instruction computes, none if the latch holds no instruction. -/
def latchLeaves (l : Latch) (s : State) : Bool :=
  match decode l.opcode l.opA l.opB with
  | .ok i => execLeaves i s
  | .error _ => false

/-- Stop with the model-only fault under the option `fault` if `leaves` holds; otherwise answer `o`. -/
def guardAddr (option : AddrOverflow) (leaves : Bool) (o : Host.Outcome State Fault Refusal) :
    Host.Outcome State Fault Refusal :=
  match option with
  | .wrap => o
  | .fault => if leaves then .fault .addressOverflow else o

/-- An instruction that raised a fault of the hardware computes none of R99's own addresses: its
checks come first (60_exceptions.md R101, R102). -/
def guardCompleted (option : AddrOverflow) (leaves : Bool)
    (o : Host.Outcome State Fault Refusal) : Host.Outcome State Fault Refusal :=
  match o with
  | .next t => if t.faultCause = .none then guardAddr option leaves (.next t) else .next t
  | .fault r => .fault r
  | .refused r => .refused r

/-- One instruction of a RUNNING CORE under a treatment of address overflow. With `wrap` the guards
do nothing. DESIGN CHOICE (notes/assumptions/3.md), safe: the order of the option's checks. -/
def runUnder (option : AddrOverflow) (s : State) : Host.Outcome State Fault Refusal :=
  guardAddr option (fetchLeaves s)
    (guardCompleted option (latchLeaves (fetch s) s) (runLatch (fetch s) s))

/-- `s` with a word, numbered as the opcode table numbers it, in the three bytes the next fetch reads. -/
def placeWord (s : State) (nbits w : Nat) : State :=
  ((s.memWrite s.pc (wordByte nbits w 0)).memWrite (s.pcPlus 1) (wordByte nbits w 1)).memWrite
    (s.pcPlus 2) (wordByte nbits w 2)

end Sys2Proof.Machine
end

