-- ==== Sys2Proof/Machine/Step.lean ====
section
/-!
DEFINITION. One step of the machine (70_reset_and_hazards.md R114, R116).
-/
namespace Sys2Proof.Machine

/-- One step under a treatment of address overflow (60_exceptions.md R99). RUNNING takes one
instruction; HALTED and FAULTED fetch nothing and hold their state (70_reset_and_hazards.md R114;
notes/assumptions/16.md). -/
def stepUnder (option : AddrOverflow) (s : State) : Host.Outcome State Fault Refusal :=
  match s.control with
  | .running => runUnder option s
  | .halted => .next s
  | .faulted => .next s

/-- One step of this hardware, whose `ADDR_OVERFLOW` is `wrap` (00_scope.md R5). -/
def step (s : State) : Host.Outcome State Fault Refusal := stepUnder Config.addrOverflow s

/-- `s` with the word where `step` fetches its next instruction. -/
def State.withFetchWord (s : State) (nbits w : Nat) : State := placeWord s nbits w

end Sys2Proof.Machine
end

