-- ==== Sys2Proof/Machine/Checks.lean ====
section
/-!
DEFINITION. The fault checks of one instruction as a list in the spec's order (60_exceptions.md R101),
written apart from the meanings: the FSM's DECODE state runs them (70_reset_and_hazards.md R121), and
a statement says that the step raises exactly the first that applies.
-/
namespace Sys2Proof.Machine

/-- What a fault records: cause and info (60_exceptions.md R94). -/
abbrev FaultRecord := FaultCause × Byte

/-- The operand bytes an instruction uses as register indices, A first (30_encoding.md R60). -/
def regOperands : Instr → List Byte
  | .add a b => [a, b]
  | .sub a b => [a, b]
  | .mul a b => [a, b]
  | .div a b => [a, b]
  | .mod a b => [a, b]
  | .inc a => [a]
  | .dec a => [a]
  | .cmp _ _ => []
  | .and a b => [a, b]
  | .not a => [a]
  | .or a b => [a, b]
  | .xor a b => [a, b]
  | .shl a => [a]
  | .shr a => [a]
  | .push a => [a]
  | .pop a => [a]
  | .prn a => [a]
  | .call a => [a]
  | .ret => []
  | .ldi a _ => [a]
  | .halt => []

/-- The divisor operand of DIV and MOD (60_exceptions.md R97). -/
def divisorOperand : Instr → Option Byte
  | .div _ b => some b
  | .mod _ b => some b
  | .add _ _ => none
  | .sub _ _ => none
  | .mul _ _ => none
  | .inc _ => none
  | .dec _ => none
  | .cmp _ _ => none
  | .and _ _ => none
  | .not _ => none
  | .or _ _ => none
  | .xor _ _ => none
  | .shl _ => none
  | .shr _ => none
  | .push _ => none
  | .pop _ => none
  | .prn _ => none
  | .call _ => none
  | .ret => none
  | .ldi _ _ => none
  | .halt => none

/-- Check 4: the divisor register holds 0 (60_exceptions.md R97, R101). -/
def zeroDivisor (i : Instr) (s : State) : Option FaultRecord :=
  match divisorOperand i with
  | none => none
  | some b =>
    match regIndex? b with
    | none => none
    | some rb => if s.readReg rb = 0 then some (.divisionByZero, b) else none

/-- Checks 2 to 4 of a decoded instruction: the first register operand that names no register, then
the divisor (60_exceptions.md R101). -/
def instrFault (i : Instr) (s : State) : Option FaultRecord :=
  match (regOperands i).find? fun b => decide (Config.nreg ≤ b.toNat) with
  | some b => some (.illegalRegister, b)
  | none => zeroDivisor i s

/-- Checks 1 to 4: the first that applies to the latch, if any (60_exceptions.md R101). -/
def firstFault (l : Latch) (s : State) : Option FaultRecord :=
  match decode l.opcode l.opA l.opB with
  | .error _ => some (.illegalInstruction, l.opcode)
  | .ok i => instrFault i s

end Sys2Proof.Machine
end

