-- ==== Sys2Proof/Machine/Reset.lean ====
section
/-!
DEFINITION. Reset as an input and the loader's contract to the CORE (70_reset_and_hazards.md R112, R113,
R115).
-/
namespace Sys2Proof.Machine

/-- Reset applied to a state, for a draw of `REG_INIT`: every register of the CORE takes its reset
value, the output sequence is emptied, memory is left as it is (70_reset_and_hazards.md R112). -/
def State.applyReset (s : State) (draw : Vector Byte 7) : State := State.resetOf draw s.mem

/-- The loader's writes: one byte per address, from address `k` up (20_memory.md R32). -/
def Memory.load : Memory → Nat → List Byte → Memory
  | m, _, [] => m
  | m, k, v :: image => Memory.load (Memory.store m k v) (k + 1) image

/-- Construct memory zero-filled, load the image from address 0 and release reset
(70_reset_and_hazards.md R115). No run starts from an image longer than 256 bytes
(92_eei_decisions.md D17). -/
def boot (draw : Vector Byte 7) (image : List Byte) : Option State :=
  if image.length ≤ Config.memSize then some (State.resetOf draw (Memory.load [] 0 image))
  else none

end Sys2Proof.Machine
end

