-- ==== Sys2Proof/Machine/Fsm.lean ====
section
/-!
DEFINITION. The reference control sequence of 70_reset_and_hazards.md R121 as a machine of its own: one
FSM state per micro-step, with the latches. It is informative in the spec; the architectural machine is
`step`, and a statement says that this one refines it. Reset may arrive between any two micro-steps
(R113; 92_eei_decisions.md D23).
-/
namespace Sys2Proof.Machine

/-- The FSM's states (R121); HALTED and FAULTED are terminal. -/
inductive Phase where
  | reset
  | fetch0
  | fetch1
  | fetch2
  | decode
  | exec
  | halt
  | fault
  | halted
  | faulted
deriving DecidableEq, Repr

/-- The CORE inside an instruction: the architectural state, the FSM state, the latches, what FAULT
will record, and the draw of `REG_INIT` that the next reset takes. -/
structure Micro where
  core : State
  phase : Phase
  latch : Latch
  pending : FaultRecord
  draw : Vector Byte 7
deriving DecidableEq, Repr

/-- The FSM state in which an instruction boundary leaves the CORE (10_state.md R24). -/
def State.boundary (s : State) : Phase :=
  match s.control with
  | .running => .fetch0
  | .halted => .halted
  | .faulted => .faulted

/-- DECODE: a failed check goes to FAULT, HALT to HALT, the rest to EXEC (R121). -/
def Micro.decodeNext (m : Micro) : Micro :=
  match firstFault m.latch m.core with
  | some r => { m with phase := .fault, pending := r }
  | none =>
    if decode m.latch.opcode m.latch.opA m.latch.opB = .ok .halt then { m with phase := .halt }
    else { m with phase := .exec }

/-- EXEC: the effect of the decoded instruction, whose checks have passed (R121). -/
def Micro.execNext (m : Micro) : Micro :=
  match runLatch m.latch m.core with
  | .next t => { m with core := t, phase := .fetch0 }
  | .fault _ => m
  | .refused _ => m

/-- One micro-step (R121). -/
def Micro.step (m : Micro) : Micro :=
  match m.phase with
  | .reset => { m with core := m.core.applyReset m.draw, phase := .fetch0 }
  | .fetch0 => { m with latch.opcode := m.core.memRead m.core.pc, phase := .fetch1 }
  | .fetch1 => { m with latch.opA := m.core.memRead (m.core.pcPlus 1), phase := .fetch2 }
  | .fetch2 => { m with latch.opB := m.core.memRead (m.core.pcPlus 2), phase := .decode }
  | .decode => m.decodeNext
  | .exec => m.execNext
  | .halt => { m with core := m.core.stop, phase := .halted }
  | .fault => { m with core := m.core.faulted m.pending.1 m.pending.2, phase := .faulted }
  | .halted => m
  | .faulted => m

/-- `n` micro-steps. -/
def Micro.run : Nat → Micro → Micro
  | 0, m => m
  | n + 1, m => Micro.run n m.step

/-- The reset input, between any two micro-steps: the FSM goes to RESET with a draw of `REG_INIT`
(R113). -/
def Micro.assertReset (m : Micro) (draw : Vector Byte 7) : Micro :=
  { m with phase := .reset, draw := draw }

end Sys2Proof.Machine
end

