-- ==== Sys2Proof/Machine/Ports.lean ====
section
/-!
DEFINITION. What the CORE's ports show of one step (10_state.md R29): its memory transactions in order
(20_memory.md R36, R37), its output event (42_load_io_halt.md R92) and the status outputs. The ports
hold no state of their own, so all of it is computed from the state the step starts in.
-/
namespace Sys2Proof.Machine

/-- One memory transaction (20_memory.md R35, R40): the data of a read is what memory returned. -/
inductive Txn where
  | read (addr : Addr) (data : Byte)
  | write (addr : Addr) (data : Byte)
deriving DecidableEq, Repr

/-- The memory port during one transaction (10_state.md R29). -/
structure MemPort where
  memAddr : Addr
  memRe : Bool
  memRdata : Option Byte
  memWe : Bool
  memWdata : Option Byte
deriving DecidableEq, Repr

/-- The port's signals; a data line the transaction does not use has no value. -/
def Txn.port : Txn → MemPort
  | .read a d => { memAddr := a, memRe := true, memRdata := some d, memWe := false, memWdata := none }
  | .write a d => { memAddr := a, memRe := false, memRdata := none, memWe := true, memWdata := some d }

/-- A `MemRead` of the state as a transaction. -/
def readTxn (s : State) (a : Addr) : Txn := .read a (s.memRead a)

/-- The three fetch reads (20_memory.md R37). -/
def fetchTxns (s : State) : List Txn :=
  [readTxn s s.pc, readTxn s (s.pcPlus 1), readTxn s (s.pcPlus 2)]

/-- The instruction's own transaction, where it raises no fault (20_memory.md R36, R37). -/
def ownTxns (i : Instr) (s : State) : List Txn :=
  match i with
  | .push a =>
    match regIndex? a with
    | some ra => [.write s.pushAddr ((s.setSp s.pushAddr).readReg ra)]
    | none => []
  | .pop _ => [readTxn s s.sp]
  | .call _ => [.write s.pushAddr (s.pcPlus 2)]
  | .ret => [readTxn s s.sp]
  | .add _ _ => []
  | .sub _ _ => []
  | .mul _ _ => []
  | .div _ _ => []
  | .mod _ _ => []
  | .inc _ => []
  | .dec _ => []
  | .cmp _ _ => []
  | .and _ _ => []
  | .not _ => []
  | .or _ _ => []
  | .xor _ _ => []
  | .shl _ => []
  | .shr _ => []
  | .prn _ => []
  | .ldi _ _ => []
  | .halt => []

/-- The transactions after the fetch; an instruction that faults makes none (20_memory.md R37). -/
def latchTxns (l : Latch) (s : State) : List Txn :=
  match decode l.opcode l.opA l.opB with
  | .error _ => []
  | .ok i => if (instrFault i s).isSome then [] else ownTxns i s

/-- All transactions of the next step, in order; none in HALTED and FAULTED (70_reset_and_hazards.md
R114). -/
def State.transactions (s : State) : List Txn :=
  match s.control with
  | .running => fetchTxns s ++ latchTxns (fetch s) s
  | .halted => []
  | .faulted => []

/-- Replay transactions on a memory: a write stores, and a read must return what memory holds then
(20_memory.md R33 to R35). -/
def replay : Memory → List Txn → Option Memory
  | m, [] => some m
  | m, .read a d :: ts => if Memory.byteAt m a.toNat = d then replay m ts else none
  | m, .write a d :: ts => replay (Memory.store m a.toNat d) ts

/-- The output event of the latch's instruction (42_load_io_halt.md R91). -/
def latchEvent (l : Latch) (s : State) : Option Byte :=
  match decode l.opcode l.opA l.opB with
  | .ok (.prn a) =>
    match regIndex? a with
    | some ra => some (s.readReg ra)
    | none => none
  | _ => none

/-- The output event of the next step, if any. -/
def State.outEvent (s : State) : Option Byte :=
  match s.control with
  | .running => latchEvent (fetch s) s
  | .halted => none
  | .faulted => none

/-- The output port (10_state.md R29): `out_valid` with one event on `out_data`. -/
structure OutPort where
  outValid : Bool
  outData : Option Byte
deriving DecidableEq, Repr

/-- The output port during the next step; without an event `out_data` has no value. -/
def State.outPort (s : State) : OutPort :=
  { outValid := s.outEvent.isSome, outData := s.outEvent }

/-- The status outputs (10_state.md R29). -/
structure StatusPort where
  running : BitVec 1
  faultCause : BitVec 2
  faultInfo : Byte
deriving DecidableEq, Repr

/-- The status outputs show the registers (10_state.md R21, R23). -/
def State.statusPort (s : State) : StatusPort :=
  { running := if s.running then 1 else 0
    faultCause := s.faultCause.code
    faultInfo := s.faultInfo }

end Sys2Proof.Machine
end

