-- ==== Sys2Proof/WellFormed.lean ====
section
/-!
DEFINITION. Well-formed instructions: every register operand the instruction uses names one of the
eight registers (30_encoding.md R56, R57, R60). CMP uses no operand (R58). A word that is not well
formed still runs: it raises IllegalRegister (60_exceptions.md R96).
-/
namespace Sys2Proof

/-- The byte names a register: 0 to 7 (30_encoding.md R56). -/
def namesReg (b : Byte) : Bool := b.toNat < Config.nreg

/-- Every used register operand names a register (30_encoding.md R60). -/
def WellFormed : Instr → Bool
  | .add a b => namesReg a && namesReg b
  | .sub a b => namesReg a && namesReg b
  | .mul a b => namesReg a && namesReg b
  | .div a b => namesReg a && namesReg b
  | .mod a b => namesReg a && namesReg b
  | .inc a => namesReg a
  | .dec a => namesReg a
  | .cmp _ _ => true
  | .and a b => namesReg a && namesReg b
  | .not a => namesReg a
  | .or a b => namesReg a && namesReg b
  | .xor a b => namesReg a && namesReg b
  | .shl a => namesReg a
  | .shr a => namesReg a
  | .push a => namesReg a
  | .pop a => namesReg a
  | .prn a => namesReg a
  | .call a => namesReg a
  | .ret => true
  | .ldi a _ => namesReg a
  | .halt => true

end Sys2Proof
end

