-- ==== Sys2Proof/Safety.lean ====
section
/-!
DEFINITION. The terms the statements are made of: what an instruction leaves unchanged, the shapes the
ALU rules share, and the invariant of the machine.
-/
namespace Sys2Proof.Machine

/-- The status registers are unchanged. -/
structure SameStatus (s t : State) : Prop where
  running : t.running = s.running
  faultCause : t.faultCause = s.faultCause
  faultInfo : t.faultInfo = s.faultInfo

/-- Every byte of memory reads as before. -/
def SameMemory (s t : State) : Prop := ∀ x : Byte, t.memRead x = s.memRead x

/-- Every register but `d` is unchanged. -/
def SameRegsBut (d : RegIdx) (s t : State) : Prop := ∀ r, r ≠ d → t.readReg r = s.readReg r

/-- All registers are unchanged. -/
def SameRegs (s t : State) : Prop := ∀ r, t.readReg r = s.readReg r

/-- Nothing but registers and pc may have changed: status, memory and output are as before. -/
structure Quiet (s t : State) : Prop where
  status : SameStatus s t
  memory : SameMemory s t
  output : t.output = s.output

/-- `t` is `s` with the pc moved on by `n`, mod 256 (10_state.md R18). -/
def PcMoves (n : Nat) (s t : State) : Prop := t.pc.toNat = (s.pc.toNat + n) % 256

/-- A 3-byte instruction with two operand bytes: how it decodes and encodes (30_encoding.md R53; the
opcode byte is the spec's decision D1, R55). -/
def Encodes3 (op : Byte) (mk : Byte → Byte → Instr) : Prop :=
  ∀ a b, decode op a b = .ok (mk a b) ∧ encode (mk a b) = [op, a, b]

/-- A 2-byte instruction: it decodes whatever the third fetched byte is (30_encoding.md R53, R58). -/
def Encodes2 (op : Byte) (mk : Byte → Instr) : Prop :=
  ∀ a b, decode op a b = .ok (mk a) ∧ encode (mk a) = [op, a]

/-- A 1-byte instruction: it decodes whatever the other fetched bytes are (30_encoding.md R53, R58). -/
def Encodes1 (op : Byte) (i : Instr) : Prop :=
  ∀ a b, decode op a b = .ok i ∧ encode i = [op]

/-- Operand A of 8 or more raises IllegalRegister with that byte and changes nothing else
(60_exceptions.md R96, R103; the spec's decision D4). -/
def ChecksA (mk : Byte → Instr) : Prop :=
  ∀ a s, 8 ≤ a.toNat → exec (mk a) s = .next (s.faulted .illegalRegister a)

/-- Operand A is checked first, whatever B is, and then operand B (60_exceptions.md R101). -/
def ChecksAB (mk : Byte → Byte → Instr) : Prop :=
  (∀ b, ChecksA fun a => mk a b) ∧ ∀ A : RegIdx, ChecksA fun b => mk (regByte A) b

/-- The effect of an ALU instruction that passed its checks (40_alu.md R66): x[A] takes the value `v`,
pc moves by the length, and nothing else changes. -/
def AluEffect (i : Instr) (s : State) (A : RegIdx) (v len : Nat) : Prop :=
  ∃ t, exec i s = .next t ∧ (t.readReg A).toNat = v ∧ PcMoves len s t ∧
    SameRegsBut A s t ∧ Quiet s t

/-- The whole rule of a binary ALU instruction whose only faults are its operand checks: encoding,
exceptions, result, frame. It completes for every A, B and state. -/
def BinaryRule (op : Byte) (mk : Byte → Byte → Instr) (f : Nat → Nat → Nat) : Prop :=
  Encodes3 op mk ∧ ChecksAB mk ∧
  ∀ (A B : RegIdx) (s : State),
    AluEffect (mk (regByte A) (regByte B)) s A (f (s.readReg A).toNat (s.readReg B).toNat) 3

/-- The whole rule of a unary ALU instruction. It completes for every A and state. -/
def UnaryRule (op : Byte) (mk : Byte → Instr) (f : Nat → Nat) : Prop :=
  Encodes2 op mk ∧ ChecksA mk ∧
  ∀ (A : RegIdx) (s : State), AluEffect (mk (regByte A)) s A (f (s.readReg A).toNat) 2

/-- The whole rule of DIV or MOD: after the operand checks a zero divisor raises DivisionByZero with
the divisor's index and changes nothing else; with any other divisor the instruction completes. -/
def DivideRule (op : Byte) (mk : Byte → Byte → Instr) (f : Nat → Nat → Nat) : Prop :=
  Encodes3 op mk ∧ ChecksAB mk ∧
  (∀ (A B : RegIdx) (s : State), s.readReg B = 0 →
    exec (mk (regByte A) (regByte B)) s = .next (s.faulted .divisionByZero (regByte B))) ∧
  ∀ (A B : RegIdx) (s : State), s.readReg B ≠ 0 →
    AluEffect (mk (regByte A) (regByte B)) s A (f (s.readReg A).toNat (s.readReg B).toNat) 3

/-- The opcode bytes of 30_encoding.md R55's table, in its order. -/
def legalOpcodes : List Byte :=
  [0xA0, 0xA1, 0xA2, 0xA3, 0xA4, 0x65, 0x66, 0xA7, 0xA8, 0x69, 0xAA, 0xAB, 0xAC, 0xAD,
   0x45, 0x46, 0x47, 0x50, 0x11, 0x82, 0x01]

/-- The opcode bytes that 30_encoding.md R55's table gives a length of `n` bytes: RET and HALT 1, the
nine of format `R` 2 (SHL and SHR among them, 90_conflicts.md C9), the nine of format `RR` and LDI 3. -/
def opcodesOfLength : Nat → List Byte
  | 1 => [0x11, 0x01]
  | 2 => [0x65, 0x66, 0x69, 0xAC, 0xAD, 0x45, 0x46, 0x47, 0x50]
  | 3 => [0xA0, 0xA1, 0xA2, 0xA3, 0xA4, 0xA7, 0xA8, 0xAA, 0xAB, 0x82]
  | _ => []

/-- The 14 ALU operations (00_scope.md R2). -/
def Mnemonic.alu : List Mnemonic :=
  [.add, .sub, .mul, .div, .mod, .inc, .dec, .and, .or, .xor, .not, .shl, .shr, .cmp]

/-- The instruction is an ALU operation. -/
def isAlu (i : Instr) : Bool := Mnemonic.alu.contains i.mnemonic

/-- RUNNING, in state bits (10_state.md R24). -/
def State.Runs (s : State) : Prop := s.running = true ∧ s.faultCause = .none

/-- What the status registers say is true of the machine (10_state.md R24; 60_exceptions.md R103):
RUNNING and HALTED have no fault recorded; in HALTED the pc still points at a HALT; in FAULTED the
recorded cause and info are those of the first failed check of the instruction at pc. -/
def State.HonestStatus (s : State) : Prop :=
  match s.control with
  | .running => s.faultCause = .none ∧ s.faultInfo = 0
  | .halted => s.faultCause = .none ∧ s.faultInfo = 0 ∧
      decode (fetch s).opcode (fetch s).opA (fetch s).opB = .ok .halt
  | .faulted => firstFault (fetch s) s = some (s.faultCause, s.faultInfo)

/-- The invariant of the machine: memory in canonical form, and an honest status. -/
def State.Inv (s : State) : Prop := Memory.wf s.mem ∧ s.HonestStatus

end Sys2Proof.Machine
end

