-- ==== Sys2Proof/Certificates/Slice0/Obligations.lean ====
section
/-!
DEFINITION. The statements for the provers, in the order of the spec's files: encoding, the 21
instructions, status and faults, memory and ports, the stack's laws, reset and boot, the FSM.
-/
open Sys2Proof Sys2Proof.Machine

/-! ### Encoding (30_encoding.md) -/

/-- R53, R55, R59: six words written out in binary, at least one of each format, decode to their
instructions, and the byte 0xFF, in no row of R55's table, is refused. -/
def Obligations.SampleWordsDecode : Prop :=
  decode 0b10100000 0 1 = .ok (.add 0 1) ∧
  decode 0b10101100 3 0xFF = .ok (.shl 3) ∧
  decode 0b01010000 1 0 = .ok (.call 1) ∧
  decode 0b10000010 0 8 = .ok (.ldi 0 8) ∧
  decode 0b00010001 0xFF 0xFF = .ok .ret ∧
  decode 0b00000001 0 0 = .ok .halt ∧
  decode 0b11111111 0 0 = .error (.illegalOpcode 0b11111111)

/-- R53, R61: decoding undoes encoding, with whatever bytes follow, under every opcode map that gives
no two mnemonics one byte (92_eei_decisions.md D1 keeps the map a parameter), and this hardware's map
is one. -/
def Obligations.DecodeUndoesEncode : Prop :=
  (∀ map : OpcodeMap, Function.Injective map → ∀ (i : Instr) (rest : List Byte),
    decodeBytesWith map (encodeWith map i ++ rest) = .ok (i, rest)) ∧
  Function.Injective Config.opcodeMap ∧
  ∀ (i : Instr) (rest : List Byte), decodeBytes (encode i ++ rest) = .ok (i, rest)

/-- R53: whatever decodes is, byte for byte, the encoding of what it decodes to, and then the bytes
left over. -/
def Obligations.EncodeUndoesDecode : Prop :=
  ∀ (bs : List Byte) (i : Instr) (rest : List Byte),
    decodeBytes bs = .ok (i, rest) → encode i ++ rest = bs

/-- R59, R95: a byte outside R55's table decodes to nothing, and a RUNNING CORE that fetches it takes
IllegalInstruction with that byte; every byte of the table decodes; 235 bytes are outside, among them
0x00 and 0xFF. -/
def Obligations.IllegalOpcodesFault : Prop :=
  (∀ op a b : Byte, op ∉ legalOpcodes → decode op a b = .error (.illegalOpcode op)) ∧
  (∀ op a b : Byte, op ∈ legalOpcodes → ∃ i, decode op a b = .ok i) ∧
  (∀ s : State, s.Runs → s.memRead s.pc ∉ legalOpcodes →
    step s = .next (s.faulted .illegalInstruction (s.memRead s.pc))) ∧
  ((List.range 256).filter fun n => decide (BitVec.ofNat 8 n ∉ legalOpcodes)).length = 235 ∧
  (0x00 : Byte) ∉ legalOpcodes ∧ (0xFF : Byte) ∉ legalOpcodes

/-- R58: op_a and op_b of a 1-byte instruction and op_b of a 2-byte one never matter, and CMP runs the
same with any operand bytes. -/
def Obligations.UnusedBytesIgnored : Prop :=
  (∀ (op a b : Byte) (i : Instr), decode op a b = .ok i → i.length = 1 →
    ∀ a' b', decode op a' b' = .ok i) ∧
  (∀ (op a b : Byte) (i : Instr), decode op a b = .ok i → i.length = 2 →
    ∀ b', decode op a b' = .ok i) ∧
  (∀ (a b a' b' : Byte) (s : State), exec (.cmp a b) s = exec (.cmp a' b') s)

/-- R61: the opcode byte alone decides the length: two instructions with one opcode byte have the same
length; that length is the one R55's table gives the byte (`opcodesOfLength`: SHL and SHR 2,
90_conflicts.md C9), whatever the operand bytes are; it is the number of bytes the decoder takes and the
encoder writes; and a RUNNING CORE fetches all three bytes whatever the opcode. -/
def Obligations.LengthFromOpcodeAlone : Prop :=
  (∀ (op a b a' b' : Byte) (i i' : Instr),
    decode op a b = .ok i → decode op a' b' = .ok i' →
      i.length = i'.length ∧ (i.length = 1 ∨ i.length = 2 ∨ i.length = 3)) ∧
  (∀ (op a b : Byte) (i : Instr), decode op a b = .ok i → op ∈ opcodesOfLength i.length) ∧
  (∀ (n : Nat) (op : Byte), op ∈ opcodesOfLength n →
    ∀ a b, ∃ i, decode op a b = .ok i ∧ i.length = n ∧ (encode i).length = n) ∧
  (∀ (bs : List Byte) (i : Instr) (rest : List Byte),
    decodeBytes bs = .ok (i, rest) → bs.length = i.length + rest.length) ∧
  ∀ s : State, s.Runs →
    [.read s.pc (s.memRead s.pc), .read (s.pc + 1) (s.memRead (s.pc + 1)),
      .read (s.pc + 2) (s.memRead (s.pc + 2))] <+: s.transactions

/-! ### The ALU (40_alu.md) -/

/-- R67. -/
def Obligations.AddResult : Prop := BinaryRule 0xA0 .add fun x y => (x + y) % 256

/-- R68: x - y is never below -255, so adding 256 first keeps it a natural number. -/
def Obligations.SubResult : Prop := BinaryRule 0xA1 .sub fun x y => (x + 256 - y) % 256

/-- R69. -/
def Obligations.MulResult : Prop := BinaryRule 0xA2 .mul fun x y => (x * y) % 256

/-- R70. -/
def Obligations.DivResult : Prop := DivideRule 0xA3 .div fun x y => x / y

/-- R71. -/
def Obligations.ModResult : Prop := DivideRule 0xA4 .mod fun x y => x % y

/-- R72. -/
def Obligations.IncResult : Prop := UnaryRule 0x65 .inc fun x => (x + 1) % 256

/-- R73: 0 becomes 255. -/
def Obligations.DecResult : Prop := UnaryRule 0x66 .dec fun x => (x + 255) % 256

/-- R74. -/
def Obligations.AndResult : Prop := BinaryRule 0xA8 .and fun x y => x &&& y

/-- R75. -/
def Obligations.OrResult : Prop := BinaryRule 0xAA .or fun x y => x ||| y

/-- R76. -/
def Obligations.XorResult : Prop := BinaryRule 0xAB .xor fun x y => x ^^^ y

/-- R77. -/
def Obligations.NotResult : Prop := UnaryRule 0x69 .not fun x => 255 - x

/-- R78. -/
def Obligations.ShlResult : Prop := UnaryRule 0xAC .shl fun x => (x * 2) % 256

/-- R79. -/
def Obligations.ShrResult : Prop := UnaryRule 0xAD .shr fun x => x / 2

/-- R80: for every state and any two operand bytes CMP completes, moves pc by 3 and changes nothing
else. -/
def Obligations.CmpOnlySkips : Prop :=
  Encodes3 0xA7 .cmp ∧
  ∀ (a b : Byte) (s : State), ∃ t, exec (.cmp a b) s = .next t ∧
    PcMoves 3 s t ∧ SameRegs s t ∧ Quiet s t

/-- R82: an ALU instruction whose operands pass the checks of R101 completes, with no fault recorded
by it; and both whether it faults and the value of every operand register afterwards depend on the
values of its operand registers alone, not on pc, memory, other registers or earlier instructions. -/
def Obligations.AluDependsOnOperandsAlone : Prop :=
  ∀ (i : Instr) (s s' : State), isAlu i = true →
    (∀ r, regByte r ∈ regOperands i → s.readReg r = s'.readReg r) →
      instrFault i s = instrFault i s' ∧
      (instrFault i s = none → ∃ t t', exec i s = .next t ∧ exec i s' = .next t' ∧
        t.faultCause = s.faultCause ∧ t'.faultCause = s'.faultCause ∧
        ∀ r, regByte r ∈ regOperands i → t.readReg r = t'.readReg r)

/-! ### Stack and control transfer (41_stack_control.md) -/

/-- R84: the store goes to the decremented SP, and what is stored is x[A] read after the decrement. -/
def Obligations.PushStores : Prop :=
  Encodes2 0x45 .push ∧ ChecksA .push ∧
  ∀ (A : RegIdx) (s : State), ∃ t, exec (.push (regByte A)) s = .next t ∧
    s.pushAddr.toNat = (s.sp.toNat + 255) % 256 ∧
    t.sp = s.pushAddr ∧
    t.memRead s.pushAddr = (if A = 7 then s.pushAddr else s.readReg A) ∧
    (∀ x : Byte, x ≠ s.pushAddr → t.memRead x = s.memRead x) ∧
    PcMoves 2 s t ∧ SameRegsBut 7 s t ∧ SameStatus s t ∧ t.output = s.output

/-- R85: x[A] takes the byte at SP; then x[7] is incremented, so POP R7 leaves the popped byte plus 1. -/
def Obligations.PopLoads : Prop :=
  Encodes2 0x46 .pop ∧ ChecksA .pop ∧
  ∀ (A : RegIdx) (s : State), ∃ t, exec (.pop (regByte A)) s = .next t ∧
    (A ≠ 7 → t.readReg A = s.memRead s.sp) ∧
    t.sp.toNat = ((if A = 7 then s.memRead s.sp else s.sp).toNat + 1) % 256 ∧
    (∀ r, r ≠ A → r ≠ 7 → t.readReg r = s.readReg r) ∧
    PcMoves 2 s t ∧ Quiet s t

/-- R86: the return address (pc + 2) mod 256 is stored at the decremented SP, and pc becomes x[A] read
after the decrement. -/
def Obligations.CallTransfers : Prop :=
  Encodes2 0x50 .call ∧ ChecksA .call ∧
  ∀ (A : RegIdx) (s : State), ∃ t, exec (.call (regByte A)) s = .next t ∧
    s.pushAddr.toNat = (s.sp.toNat + 255) % 256 ∧
    t.sp = s.pushAddr ∧
    (t.memRead s.pushAddr).toNat = (s.pc.toNat + 2) % 256 ∧
    (∀ x : Byte, x ≠ s.pushAddr → t.memRead x = s.memRead x) ∧
    t.pc = (if A = 7 then s.pushAddr else s.readReg A) ∧
    SameRegsBut 7 s t ∧ SameStatus s t ∧ t.output = s.output

/-- R87: for every state RET completes; pc becomes the byte at SP, and SP is incremented. -/
def Obligations.RetTransfers : Prop :=
  Encodes1 0x11 .ret ∧
  ∀ s : State, ∃ t, exec .ret s = .next t ∧
    t.pc = s.memRead s.sp ∧ t.sp.toNat = (s.sp.toNat + 1) % 256 ∧
    SameRegsBut 7 s t ∧ Quiet s t

/-- R89 law 1: PUSH RA and then POP RA leave every register, SP among them, as it was, for every A and
every SP; the pushed byte stays in memory. -/
def Obligations.PushPopRoundTrip : Prop :=
  ∀ (A : RegIdx) (s : State), ∃ t u,
    exec (.push (regByte A)) s = .next t ∧ exec (.pop (regByte A)) t = .next u ∧
    SameRegs s u ∧ PcMoves 4 s u ∧
    u.memRead s.pushAddr = (if A = 7 then s.pushAddr else s.readReg A) ∧
    ∀ x : Byte, x ≠ s.pushAddr → u.memRead x = s.memRead x

/-- R89 law 2: after CALL RA, a subroutine that ends in a state `u` with SP as it found it and the byte
at SP intact returns with RET to (pc + 2) mod 256, with SP at its value before the call. The premise
that the return byte is intact is the model's reading: the rule names only SP. -/
def Obligations.CallRetRoundTrip : Prop :=
  ∀ (A : RegIdx) (s : State), ∃ t, exec (.call (regByte A)) s = .next t ∧
    ∀ u : State, u.sp = t.sp → u.memRead u.sp = t.memRead t.sp →
      ∃ v, exec .ret u = .next v ∧ v.pc.toNat = (s.pc.toNat + 2) % 256 ∧ v.sp = s.sp

/-- R88: PUSH RA followed by RET jumps to x[A] with SP restored (for A = 7, to the decremented SP). -/
def Obligations.PushRetJumps : Prop :=
  ∀ (A : RegIdx) (s : State), ∃ t u,
    exec (.push (regByte A)) s = .next t ∧ exec .ret t = .next u ∧
    u.pc = (if A = 7 then s.pushAddr else s.readReg A) ∧ SameRegs s u

/-! ### Load, output, halt (42_load_io_halt.md) -/

/-- R90: for every A, every immediate and every state LDI completes and x[A] is the immediate. -/
def Obligations.LdiLoads : Prop :=
  Encodes3 0x82 .ldi ∧ (∀ imm, ChecksA fun a => .ldi a imm) ∧
  ∀ (A : RegIdx) (imm : Byte) (s : State), ∃ t, exec (.ldi (regByte A) imm) s = .next t ∧
    t.readReg A = imm ∧ PcMoves 3 s t ∧ SameRegsBut A s t ∧ Quiet s t

/-- R91: one output event, x[A], at the end of the sequence; no register or memory cell changes. -/
def Obligations.PrnEmits : Prop :=
  Encodes2 0x47 .prn ∧ ChecksA .prn ∧
  ∀ (A : RegIdx) (s : State), ∃ t, exec (.prn (regByte A)) s = .next t ∧
    t.output = s.output ++ [s.readReg A] ∧ PcMoves 2 s t ∧ SameRegs s t ∧
    SameMemory s t ∧ SameStatus s t

/-- R93: HALT clears `running` and nothing else, pc included; the CORE is then HALTED, and whatever
state a run from there answers is the same state, with no memory transaction. -/
def Obligations.HaltStops : Prop :=
  Encodes1 0x01 .halt ∧
  ∀ s : State, ∃ t, exec .halt s = .next t ∧
    t.running = false ∧ t.pc = s.pc ∧ t.faultCause = s.faultCause ∧ t.faultInfo = s.faultInfo ∧
    SameRegs s t ∧ SameMemory s t ∧ t.output = s.output ∧
    t.control = .halted ∧ ∀ (k : Nat) (u : State), Sys2Proof.core.run k t = .next u →
      u = t ∧ u.transactions = []

/-! ### State, status and faults (10_state.md, 60_exceptions.md) -/

/-- R18: an instruction that passes its checks moves pc by its length mod 256, but CALL, RET and HALT;
CALL goes to x[A] as read after SP is decremented, RET to the byte at SP, HALT stays; an instruction
that fails a check leaves pc. -/
def Obligations.NextPc : Prop :=
  ∀ (i : Instr) (s : State), ∃ t, exec i s = .next t ∧
    (instrFault i s ≠ none → t.pc = s.pc) ∧
    (instrFault i s = none →
      ((∀ a, i ≠ .call a) → i ≠ .ret → i ≠ .halt → PcMoves i.length s t) ∧
      (∀ A : RegIdx, i = .call (regByte A) → t.pc = (s.setSp s.pushAddr).readReg A) ∧
      (i = .ret → t.pc = s.memRead s.sp) ∧
      (i = .halt → t.pc = s.pc))

/-- R21: `running` is 1 at reset; the only step that changes it runs a HALT, which clears it; no step
sets it. -/
def Obligations.OnlyHaltClearsRunning : Prop :=
  (∀ (draw : Vector Byte 7) (s : State), (s.applyReset draw).running = true) ∧
  ∀ s t : State, step s = .next t → t.running ≠ s.running →
    s.running = true ∧ t.running = false ∧
    decode (fetch s).opcode (fetch s).opA (fetch s).opB = .ok .halt

/-- R94, R23: the codes of the fault causes, no two alike, as the status port shows them. -/
def Obligations.FaultCodes : Prop :=
  FaultCause.none.code = 0 ∧ FaultCause.illegalInstruction.code = 1 ∧
  FaultCause.divisionByZero.code = 2 ∧ FaultCause.illegalRegister.code = 3 ∧
  (∀ c d : FaultCause, c.code = d.code → c = d) ∧
  ∀ s : State, s.statusPort.faultCause = s.faultCause.code ∧ s.statusPort.faultInfo = s.faultInfo ∧
    (s.statusPort.running = 1 ↔ s.running = true)

/-- R94: what `fault_info` holds for each cause, in every state that meets the invariant: 0 with no
fault, an opcode outside the table (the byte at pc), the index of a divisor register that holds 0, or
an operand byte of 8 or more. -/
def Obligations.FaultInfoMeaning : Prop :=
  ∀ s : State, s.Inv →
    (s.faultCause = .none → s.faultInfo = 0) ∧
    (s.faultCause = .illegalInstruction →
      s.faultInfo = s.memRead s.pc ∧ s.faultInfo ∉ legalOpcodes) ∧
    (s.faultCause = .divisionByZero →
      ∃ B : RegIdx, s.faultInfo = regByte B ∧ s.readReg B = 0 ∧
        s.memRead s.pc ∈ ([0xA3, 0xA4] : List Byte)) ∧
    (s.faultCause = .illegalRegister →
      8 ≤ s.faultInfo.toNat ∧
        (s.faultInfo = s.memRead (s.pcPlus 1) ∨ s.faultInfo = s.memRead (s.pcPlus 2)))

/-- R101, R102, R103: a RUNNING CORE raises exactly the first check that applies, in the order opcode,
operand A, operand B, divisor: `fault_cause` and `fault_info` are written, all else (pc, registers,
running, memory, output) is unchanged, and the CORE is FAULTED. If no check applies, the step completes
with no fault recorded. -/
def Obligations.FirstFailedCheckIsTaken : Prop :=
  ∀ s : State, s.Runs →
    match firstFault (fetch s) s with
    | some (cause, info) =>
        cause ≠ .none ∧ step s = .next (s.faulted cause info) ∧
        (s.faulted cause info).control = .faulted
    | none => ∃ t, step s = .next t ∧ t.faultCause = .none ∧ t.faultInfo = s.faultInfo

/-- R60, R96: an instruction that is not well formed raises IllegalRegister with its first register
operand of 8 or more, A before B, and changes nothing else; a well-formed one never raises it: it
completes with no fault of its own, or takes DivisionByZero. -/
def Obligations.IllFormedRaisesIllegalRegister : Prop :=
  ∀ (i : Instr) (s : State),
    (WellFormed i = false → ∃ b : Byte, 8 ≤ b.toNat ∧
      exec i s = .next (s.faulted .illegalRegister b) ∧
      ((∃ rest, i.operandBytes = b :: rest) ∨ ∃ a : Byte, a.toNat < 8 ∧ i.operandBytes = [a, b])) ∧
    (WellFormed i = true → ∃ t, exec i s = .next t ∧
      ((t.faultCause = s.faultCause ∧ t.faultInfo = s.faultInfo) ∨
        ∃ B : RegIdx, s.readReg B = 0 ∧ t = s.faulted .divisionByZero (regByte B)))

/-- R119: every program has a defined result: the step of a RUNNING CORE answers a next state, never a
fault of the model or a refusal. That a HALTED or FAULTED CORE's step, and so a run of any length that
reaches one, answers a state too is the model's choice (notes/assumptions/16.md): R116 defines a step
of a RUNNING CORE only. -/
def Obligations.StepAlwaysAnswers : Prop :=
  (∀ s : State, ∃ t, step s = .next t) ∧
  ∀ (k : Nat) (s : State), ∃ t, Sys2Proof.core.run k s = .next t

/-- R116: a RUNNING CORE runs the instruction that the three bytes at pc, pc + 1 and pc + 2 (mod 256)
decode to, well-formed or not, and the step adds nothing around it; where they decode to none it
takes IllegalInstruction. -/
def Obligations.StepRunsDecoded : Prop :=
  ∀ s : State, s.Runs →
    (∀ i, decode (s.memRead s.pc) (s.memRead (s.pc + 1)) (s.memRead (s.pc + 2)) = .ok i →
      step s = exec i s) ∧
    ((∀ i, decode (s.memRead s.pc) (s.memRead (s.pc + 1)) (s.memRead (s.pc + 2)) ≠ .ok i) →
      step s = .next (s.faulted .illegalInstruction (s.memRead s.pc)))

/-- R114: whatever state a run of any length from HALTED or FAULTED answers is the same state, and no
memory transaction and no output event comes from it. (That such a run does answer a state is
`StepAlwaysAnswers`; that a step of a stopped CORE is written as answering its own state is the model's
choice, notes/assumptions/16.md, and this statement does not rest on it.) -/
def Obligations.StoppedIsTerminal : Prop :=
  ∀ s : State, s.running = false ∨ s.faultCause ≠ .none →
    ∀ (k : Nat) (t : State), Sys2Proof.core.run k s = .next t →
      t = s ∧ t.transactions = [] ∧ t.outEvent = none

/-- The invariant is kept by every step, from every state that meets it. -/
def Obligations.StepKeepsInvariant : Prop :=
  ∀ s t : State, s.Inv → step s = .next t → t.Inv

/-- The invariant holds after reset, for every draw of `REG_INIT` and every canonical memory, and so
at `State.reset`. -/
def Obligations.ResetMeetsInvariant : Prop :=
  (∀ (draw : Vector Byte 7) (s : State), Memory.wf s.mem → (s.applyReset draw).Inv) ∧
  State.reset.Inv

/-- R99: under the model option `ADDR_OVERFLOW = fault` a step either does what the hardware does or
stops with AddressOverflow; it stops wherever an operand fetch would pass address 255; with pc at most
252 and an SP that neither 0 - 1 nor 255 + 1 can leave the range from, any instruction but POP runs as
on the hardware. Two clauses rest on the model's choices: the order among the option's checks
(notes/assumptions/3.md), and the last one, which writes R114's 'its state holds' of a stopped CORE as a
step that answers the same state (notes/assumptions/16.md). -/
def Obligations.AddressOverflowOption : Prop :=
  (∀ s : State, stepUnder .wrap s = step s) ∧
  (∀ s : State, stepUnder .fault s = step s ∨ stepUnder .fault s = .fault .addressOverflow) ∧
  (∀ s : State, s.Runs → 254 ≤ s.pc.toNat → stepUnder .fault s = .fault .addressOverflow) ∧
  (∀ s : State, s.pc.toNat ≤ 252 → s.sp ≠ 0 → s.sp ≠ 255 →
    (∀ a, decode (fetch s).opcode (fetch s).opA (fetch s).opB ≠ .ok (.pop a)) →
      stepUnder .fault s = step s) ∧
  (∀ s : State, ¬ s.Runs → stepUnder .fault s = .next s)

/-! ### Memory, output and ports (20_memory.md) -/

/-- R34: a write sets its cell and changes nothing else: every other cell, and every register, reads
as before. -/
def Obligations.MemWriteSetsOneCell : Prop :=
  ∀ (s : State) (a v : Byte),
    (s.memWrite a v).memRead a = v ∧
    (∀ x : Byte, x ≠ a → (s.memWrite a v).memRead x = s.memRead x) ∧
    SameRegs s (s.memWrite a v) ∧ SameStatus s (s.memWrite a v) ∧
    (s.memWrite a v).pc = s.pc ∧ (s.memWrite a v).output = s.output

/-- R35, R37: the transactions of a step, replayed in their order on the memory it starts from, return
what memory holds at each read and leave exactly the memory the step leaves; they begin with the three
fetch reads, and at most one more follows. -/
def Obligations.TransactionsExplainMemory : Prop :=
  ∀ s t : State, step s = .next t →
    replay s.mem s.transactions = some t.mem ∧
    (s.Runs → ∃ own, s.transactions =
        [.read s.pc (s.memRead s.pc), .read (s.pcPlus 1) (s.memRead (s.pcPlus 1)),
         .read (s.pcPlus 2) (s.memRead (s.pcPlus 2))] ++ own ∧ own.length ≤ 1 ∧
        (firstFault (fetch s) s ≠ none → own = []))

/-- R36, R37: the transactions of a step, in full: the three fetch reads, then what the table of R37
gives the instruction, where it passes its checks; nothing follows where a check fails. PUSH R7 writes
the decremented SP (41_stack_control.md R84). -/
def Obligations.TransactionsOfEachInstruction : Prop :=
  ∀ s : State, s.Runs →
    let fetchReads : List Txn :=
      [.read s.pc (s.memRead s.pc), .read (s.pc + 1) (s.memRead (s.pc + 1)),
       .read (s.pc + 2) (s.memRead (s.pc + 2))]
    (firstFault (fetch s) s ≠ none → s.transactions = fetchReads) ∧
    ∀ i, decode (fetch s).opcode (fetch s).opA (fetch s).opB = .ok i → instrFault i s = none →
      (∀ A : RegIdx, i = .push (regByte A) → s.transactions =
        fetchReads ++ [.write (s.sp - 1) (if A = 7 then s.sp - 1 else s.readReg A)]) ∧
      (∀ A : RegIdx, i = .pop (regByte A) → s.transactions =
        fetchReads ++ [.read s.sp (s.memRead s.sp)]) ∧
      (∀ A : RegIdx, i = .call (regByte A) → s.transactions =
        fetchReads ++ [.write (s.sp - 1) (s.pc + 2)]) ∧
      (i = .ret → s.transactions = fetchReads ++ [.read s.sp (s.memRead s.sp)]) ∧
      ((∀ a, i ≠ .push a) → (∀ a, i ≠ .pop a) → (∀ a, i ≠ .call a) → i ≠ .ret →
        s.transactions = fetchReads)

/-- R36: a memory cell changes in a step only if the step runs PUSH or CALL, and only the cell at the
decremented SP. -/
def Obligations.OnlyPushAndCallStore : Prop :=
  ∀ (s t : State) (x : Byte), step s = .next t → t.memRead x ≠ s.memRead x →
    s.Runs ∧ s.memRead s.pc ∈ ([0x45, 0x50] : List Byte) ∧ x = s.pushAddr

/-- R46: a PUSH is seen by the very next fetch: each of its three bytes is the pushed byte where its
address is the decremented SP, and the memory from before elsewhere. -/
def Obligations.NextFetchSeesPush : Prop :=
  ∀ (A : RegIdx) (s : State), s.Runs → s.memRead s.pc = 0x45 →
    s.memRead (s.pcPlus 1) = regByte A →
    ∃ t, step s = .next t ∧
      fetch t =
        { opcode := if s.pcPlus 2 = s.pushAddr then (s.setSp s.pushAddr).readReg A
            else s.memRead (s.pcPlus 2)
          opA := if s.pcPlus 3 = s.pushAddr then (s.setSp s.pushAddr).readReg A
            else s.memRead (s.pcPlus 3)
          opB := if s.pcPlus 4 = s.pushAddr then (s.setSp s.pushAddr).readReg A
            else s.memRead (s.pcPlus 4) }

/-- R46, R118: a CALL is seen by the very next fetch, which is at its target, x[A] read after the
decrement: each of its three bytes is the stored return address (pc + 2) mod 256 where its address is
the decremented SP, and the memory from before elsewhere. -/
def Obligations.NextFetchSeesCall : Prop :=
  ∀ (A : RegIdx) (s : State), s.Runs → s.memRead s.pc = 0x50 →
    s.memRead (s.pcPlus 1) = regByte A →
    let target := if A = 7 then s.sp - 1 else s.readReg A
    let seen := fun x : Byte => if x = s.sp - 1 then s.pc + 2 else s.memRead x
    ∃ t, step s = .next t ∧ t.pc = target ∧
      fetch t = { opcode := seen target, opA := seen (target + 1), opB := seen (target + 2) }

/-- R91, R92: a step appends to the output exactly the event the output port shows. The port shows
one exactly if the CORE is RUNNING and the fetched instruction is a PRN of a register A, and it is x[A].
R29: `out_valid` is 1 exactly if the step changes the output, and `out_data` then carries the byte
appended. Along any run the output only grows, so an event stays observed whatever happens later. -/
def Obligations.OutputEventsAreAppended : Prop :=
  (∀ s t : State, step s = .next t → t.output = s.output ++ s.outEvent.toList) ∧
  (∀ (s : State) (v : Byte), s.outEvent = some v ↔
    s.Runs ∧ ∃ A : RegIdx, v = s.readReg A ∧
      decode (fetch s).opcode (fetch s).opA (fetch s).opB = .ok (.prn (regByte A))) ∧
  (∀ s t : State, step s = .next t →
    (s.outPort.outValid = true ↔ t.output ≠ s.output) ∧
    (s.outPort.outValid = true →
      ∃ v, s.outPort.outData = some v ∧ t.output = s.output ++ [v])) ∧
  ∀ (k : Nat) (s t : State), Sys2Proof.core.run k s = .next t → s.output <+: t.output

/-- R28: the CORE cannot read the output sequence: with other bytes in front of it the step does the
same, with those bytes in front. -/
def Obligations.OutputIsNotReadable : Prop :=
  ∀ (s t : State) (front : List Byte), step s = .next t →
    step { s with output := front ++ s.output } = .next { t with output := front ++ t.output }

/-! ### Reset, boot and the FSM (70_reset_and_hazards.md) -/

/-- R112, R30: reset from any state, for every draw of `REG_INIT`: pc, SP, running, the fault
registers, the output sequence and x[0] to x[6] take their reset values, and memory is unchanged. -/
def Obligations.ResetValues : Prop :=
  ∀ (draw : Vector Byte 7) (s : State),
    (s.applyReset draw).pc = 0 ∧ (s.applyReset draw).sp = 0xF4 ∧
    (s.applyReset draw).running = true ∧ (s.applyReset draw).faultCause = .none ∧
    (s.applyReset draw).faultInfo = 0 ∧ (s.applyReset draw).output = [] ∧
    (∀ i : Fin 7, (s.applyReset draw).readReg i.castSucc = draw[i]) ∧
    (s.applyReset draw).mem = s.mem ∧ (s.applyReset draw).control = .running

/-- R32, R112, R115: after boot byte k of the image is at address k, every cell past the image is 0,
memory is canonical, and the CORE starts RUNNING at pc 0 with SP 0xF4. R115 puts an image longer than
256 bytes out of scope, and 92_eei_decisions.md D17 decides that no run starts from it; that `boot`,
which stands for the loader, answers no state for it is the model's choice (notes/assumptions/13.md). -/
def Obligations.BootLoadsImage : Prop :=
  (∀ (draw : Vector Byte 7) (image : List Byte), image.length ≤ 256 →
    ∃ s, boot draw image = some s ∧
      (∀ (k : Nat) (h : k < image.length), s.memRead (BitVec.ofNat 8 k) = image[k]) ∧
      (∀ x : Byte, image.length ≤ x.toNat → s.memRead x = 0) ∧
      Memory.wf s.mem ∧ s.pc = 0 ∧ s.sp = 0xF4 ∧ s.Runs) ∧
  ∀ (draw : Vector Byte 7) (image : List Byte), 256 < image.length → boot draw image = none

/-- R121, R116: from an instruction boundary of a RUNNING CORE, whatever its
latches hold, five micro-steps of the reference FSM reach the boundary state of exactly one step. R121 is
informative; that the model's FSM splits the work as R121's table does, one micro-step per FSM state,
is the model's choice (notes/assumptions/15.md). -/
def Obligations.FsmRefinesStep : Prop :=
  ∀ (s t : State) (latch : Latch) (pending : FaultRecord) (draw : Vector Byte 7), s.Runs →
    step s = .next t →
    let m := Micro.run 5
      { core := s, phase := .fetch0, latch := latch, pending := pending, draw := draw }
    m.core = t ∧ m.phase = t.boundary

/-- R113, 92_eei_decisions.md D23: a reset that interrupts an instruction gives the reset state over the
memory from before the instruction or the memory it leaves, and the two differ in at most one cell, the
one at the decremented SP. The points at which it can interrupt are the micro-steps of the model's FSM,
which are the model's choice (notes/assumptions/15.md); R113 names none. -/
def Obligations.ResetDuringInstruction : Prop :=
  ∀ (s t : State) (latch : Latch) (pending : FaultRecord) (draw draw' : Vector Byte 7) (n : Nat),
    s.Runs → step s = .next t → n ≤ 5 →
    let m := Micro.run n
      { core := s, phase := .fetch0, latch := latch, pending := pending, draw := draw }
    ((m.assertReset draw').step.core = s.applyReset draw' ∨
      (m.assertReset draw').step.core = t.applyReset draw') ∧
    (m.assertReset draw').step.phase = .fetch0 ∧
    ∀ x : Byte, x ≠ s.pushAddr → t.memRead x = s.memRead x
end

