-- ==== Sys2Proof/Laws/Decode.lean ====
section
/-!
SUPPORT. The decoder's parts: the lookup in the dispatch table, and an instruction put together from
its own operand bytes.
-/
namespace Sys2Proof

theorem Mnemonic.mem_all (m : Mnemonic) : m ∈ Mnemonic.all := by cases m <;> decide

/-- A lookup finds a mnemonic whose byte is the opcode. -/
theorem lookupOpcode_sound {map : OpcodeMap} {op : Byte} {m : Mnemonic}
    (h : lookupOpcode map op = some m) : map m = op := by
  simpa using List.find?_some h

/-- A lookup fails on a byte that no mnemonic has. -/
theorem lookupOpcode_none {map : OpcodeMap} {op : Byte} (h : lookupOpcode map op = none)
    (m : Mnemonic) : map m ≠ op := by
  have := List.find?_eq_none.1 h m (Mnemonic.mem_all m)
  simpa using this

/-- Decoding three bytes: the lookup decides, and the operand bytes are those given. -/
theorem decode_eq (opcode opA opB : Byte) :
    decode opcode opA opB =
      match lookupOpcode Config.opcodeMap opcode with
      | none => .error (.illegalOpcode opcode)
      | some m => .ok (m.build opA opB) := by
  simp only [decode, decodeBytes, decodeBytesWith]
  cases lookupOpcode Config.opcodeMap opcode with
  | none => rfl
  | some m => cases m <;> rfl

/-- Three bytes that are no instruction: the opcode is in no row of the map. -/
theorem decode_error {opcode opA opB : Byte} {e : DecodeError}
    (h : decode opcode opA opB = .error e) :
    e = .illegalOpcode opcode ∧ lookupOpcode Config.opcodeMap opcode = none := by
  rw [decode_eq] at h
  cases hl : lookupOpcode Config.opcodeMap opcode with
  | none => rw [hl] at h; injection h with h; exact ⟨h.symm, rfl⟩
  | some m => rw [hl] at h; injection h

/-- Three bytes that are an instruction: its mnemonic's opcode byte, and its operands. -/
theorem decode_ok {opcode opA opB : Byte} {i : Instr} (h : decode opcode opA opB = .ok i) :
    ∃ m, lookupOpcode Config.opcodeMap opcode = some m ∧ i = m.build opA opB := by
  rw [decode_eq] at h
  cases hl : lookupOpcode Config.opcodeMap opcode with
  | none => rw [hl] at h; injection h
  | some m => rw [hl] at h; injection h with h; exact ⟨m, rfl, h.symm⟩

@[simp] theorem Mnemonic.mnemonic_build (m : Mnemonic) (a b : Byte) :
    (m.build a b).mnemonic = m := by cases m <;> rfl

end Sys2Proof
end

