-- ==== Sys2Proof/Laws/State.lean ====
section
/-!
SUPPORT. What each update of State does to each field: one lemma per field per update, so that no later
proof unfolds a record update.
-/
namespace Sys2Proof.Machine

variable (s : State) (r : RegIdx) (v : Byte) (a : Addr) (n : Nat) (c : FaultCause)

@[simp] theorem State.writeReg_regs : (s.writeReg r v).regs = s.regs.set r v := rfl
@[simp] theorem State.writeReg_pc : (s.writeReg r v).pc = s.pc := rfl
@[simp] theorem State.writeReg_running : (s.writeReg r v).running = s.running := rfl
@[simp] theorem State.writeReg_faultCause : (s.writeReg r v).faultCause = s.faultCause := rfl
@[simp] theorem State.writeReg_faultInfo : (s.writeReg r v).faultInfo = s.faultInfo := rfl
@[simp] theorem State.writeReg_mem : (s.writeReg r v).mem = s.mem := rfl
@[simp] theorem State.writeReg_output : (s.writeReg r v).output = s.output := rfl

@[simp] theorem State.setSp_pc : (s.setSp v).pc = s.pc := rfl
@[simp] theorem State.setSp_running : (s.setSp v).running = s.running := rfl
@[simp] theorem State.setSp_faultCause : (s.setSp v).faultCause = s.faultCause := rfl
@[simp] theorem State.setSp_faultInfo : (s.setSp v).faultInfo = s.faultInfo := rfl
@[simp] theorem State.setSp_mem : (s.setSp v).mem = s.mem := rfl
@[simp] theorem State.setSp_output : (s.setSp v).output = s.output := rfl

@[simp] theorem State.setPc_regs : (s.setPc a).regs = s.regs := rfl
@[simp] theorem State.setPc_pc : (s.setPc a).pc = a := rfl
@[simp] theorem State.setPc_running : (s.setPc a).running = s.running := rfl
@[simp] theorem State.setPc_faultCause : (s.setPc a).faultCause = s.faultCause := rfl
@[simp] theorem State.setPc_faultInfo : (s.setPc a).faultInfo = s.faultInfo := rfl
@[simp] theorem State.setPc_mem : (s.setPc a).mem = s.mem := rfl
@[simp] theorem State.setPc_output : (s.setPc a).output = s.output := rfl

@[simp] theorem State.advance_regs : (s.advance n).regs = s.regs := rfl
@[simp] theorem State.advance_pc : (s.advance n).pc = s.pcPlus n := rfl
@[simp] theorem State.advance_running : (s.advance n).running = s.running := rfl
@[simp] theorem State.advance_faultCause : (s.advance n).faultCause = s.faultCause := rfl
@[simp] theorem State.advance_faultInfo : (s.advance n).faultInfo = s.faultInfo := rfl
@[simp] theorem State.advance_mem : (s.advance n).mem = s.mem := rfl
@[simp] theorem State.advance_output : (s.advance n).output = s.output := rfl

@[simp] theorem State.memWrite_regs : (s.memWrite a v).regs = s.regs := rfl
@[simp] theorem State.memWrite_pc : (s.memWrite a v).pc = s.pc := rfl
@[simp] theorem State.memWrite_running : (s.memWrite a v).running = s.running := rfl
@[simp] theorem State.memWrite_faultCause : (s.memWrite a v).faultCause = s.faultCause := rfl
@[simp] theorem State.memWrite_faultInfo : (s.memWrite a v).faultInfo = s.faultInfo := rfl
@[simp] theorem State.memWrite_mem : (s.memWrite a v).mem = Memory.store s.mem a.toNat v := rfl
@[simp] theorem State.memWrite_output : (s.memWrite a v).output = s.output := rfl

@[simp] theorem State.emit_regs : (s.emit v).regs = s.regs := rfl
@[simp] theorem State.emit_pc : (s.emit v).pc = s.pc := rfl
@[simp] theorem State.emit_running : (s.emit v).running = s.running := rfl
@[simp] theorem State.emit_faultCause : (s.emit v).faultCause = s.faultCause := rfl
@[simp] theorem State.emit_faultInfo : (s.emit v).faultInfo = s.faultInfo := rfl
@[simp] theorem State.emit_mem : (s.emit v).mem = s.mem := rfl
@[simp] theorem State.emit_output : (s.emit v).output = s.output ++ [v] := rfl

@[simp] theorem State.stop_regs : s.stop.regs = s.regs := rfl
@[simp] theorem State.stop_pc : s.stop.pc = s.pc := rfl
@[simp] theorem State.stop_running : s.stop.running = false := rfl
@[simp] theorem State.stop_faultCause : s.stop.faultCause = s.faultCause := rfl
@[simp] theorem State.stop_faultInfo : s.stop.faultInfo = s.faultInfo := rfl
@[simp] theorem State.stop_mem : s.stop.mem = s.mem := rfl
@[simp] theorem State.stop_output : s.stop.output = s.output := rfl

@[simp] theorem State.faulted_regs : (s.faulted c v).regs = s.regs := rfl
@[simp] theorem State.faulted_pc : (s.faulted c v).pc = s.pc := rfl
@[simp] theorem State.faulted_running : (s.faulted c v).running = s.running := rfl
@[simp] theorem State.faulted_faultCause : (s.faulted c v).faultCause = c := rfl
@[simp] theorem State.faulted_faultInfo : (s.faulted c v).faultInfo = v := rfl
@[simp] theorem State.faulted_mem : (s.faulted c v).mem = s.mem := rfl
@[simp] theorem State.faulted_output : (s.faulted c v).output = s.output := rfl

end Sys2Proof.Machine
end

