-- ==== Sys2Proof/Laws/Memory.lean ====
section
/-!
SUPPORT. Memory: a read after a store, a read elsewhere, and that every operation keeps the canonical
form.
-/
namespace Sys2Proof.Machine

theorem Memory.byteAt_insert_self (m : Memory) (a : Nat) (v : Byte) :
    Memory.byteAt (Memory.insert m a v) a = v := by
  induction m with
  | nil => simp [Memory.insert, Memory.byteAt]
  | cons c m ih =>
    obtain ⟨b, w⟩ := c
    simp only [Memory.insert]
    split
    · simp [Memory.byteAt]
    · split
      · simp [Memory.byteAt]
      · rw [Memory.byteAt, if_neg (by omega), ih]

theorem Memory.byteAt_insert_other (m : Memory) {a x : Nat} (v : Byte) (h : x ≠ a) :
    Memory.byteAt (Memory.insert m a v) x = Memory.byteAt m x := by
  have hax : a ≠ x := fun e => h e.symm
  induction m with
  | nil => simp [Memory.insert, Memory.byteAt, hax]
  | cons c m ih =>
    obtain ⟨b, w⟩ := c
    simp only [Memory.insert]
    split
    · simp [Memory.byteAt, hax]
    · split
      · next hab => subst hab; simp [Memory.byteAt, hax]
      · rw [Memory.byteAt, Memory.byteAt, ih]

theorem Memory.byteAt_erase_self (m : Memory) (a : Nat) :
    Memory.byteAt (m.filter fun c => c.1 ≠ a) a = 0 := by
  induction m with
  | nil => rfl
  | cons c m ih =>
    obtain ⟨b, w⟩ := c
    by_cases hb : b = a
    · rw [List.filter_cons_of_neg (by simp [hb]), ih]
    · rw [List.filter_cons_of_pos (by simp [hb]), Memory.byteAt, if_neg hb, ih]

theorem Memory.byteAt_erase_other (m : Memory) {a x : Nat} (h : x ≠ a) :
    Memory.byteAt (m.filter fun c => c.1 ≠ a) x = Memory.byteAt m x := by
  induction m with
  | nil => rfl
  | cons c m ih =>
    obtain ⟨b, w⟩ := c
    by_cases hb : b = a
    · have hbx : b ≠ x := fun e => h (e.symm.trans hb)
      rw [List.filter_cons_of_neg (by simp [hb]), ih, Memory.byteAt, if_neg hbx]
    · rw [List.filter_cons_of_pos (by simp [hb]), Memory.byteAt, Memory.byteAt, ih]

@[simp] theorem Memory.byteAt_store_self (m : Memory) (a : Nat) (v : Byte) :
    Memory.byteAt (Memory.store m a v) a = v := by
  unfold Memory.store
  split
  · next hv => rw [Memory.byteAt_erase_self, hv]
  · exact Memory.byteAt_insert_self m a v

theorem Memory.byteAt_store_other (m : Memory) {a x : Nat} (v : Byte) (h : x ≠ a) :
    Memory.byteAt (Memory.store m a v) x = Memory.byteAt m x := by
  unfold Memory.store
  split
  · exact Memory.byteAt_erase_other m h
  · exact Memory.byteAt_insert_other m v h

/-- Reading the byte at `x` after a store at `a`. -/
theorem Memory.byteAt_store (m : Memory) (a x : Nat) (v : Byte) :
    Memory.byteAt (Memory.store m a v) x = if x = a then v else Memory.byteAt m x := by
  split
  · next h => rw [h, Memory.byteAt_store_self]
  · next h => exact Memory.byteAt_store_other m v h

theorem Memory.mem_insert {m : Memory} {a : Nat} {v : Byte} {c : Host.Cell}
    (h : c ∈ Memory.insert m a v) : c = (a, v) ∨ c ∈ m := by
  induction m with
  | nil => simpa [Memory.insert] using h
  | cons d m ih =>
    obtain ⟨b, w⟩ := d
    simp only [Memory.insert] at h
    split at h
    · simpa using h
    · split at h
      · rcases List.mem_cons.1 h with h | h
        · exact .inl h
        · exact .inr (List.mem_cons_of_mem _ h)
      · rcases List.mem_cons.1 h with h | h
        · exact .inr (by simp [h])
        · rcases ih h with h | h
          · exact .inl h
          · exact .inr (List.mem_cons_of_mem _ h)

theorem Memory.pairwise_insert {m : Memory} (a : Nat) (v : Byte)
    (h : m.Pairwise fun c d => c.1 < d.1) :
    (Memory.insert m a v).Pairwise fun c d => c.1 < d.1 := by
  induction m with
  | nil => simp [Memory.insert]
  | cons d m ih =>
    obtain ⟨b, w⟩ := d
    obtain ⟨hb, hm⟩ := List.pairwise_cons.1 h
    simp only [Memory.insert]
    split
    · next hab =>
      refine List.pairwise_cons.2 ⟨fun c hc => ?_, h⟩
      rcases List.mem_cons.1 hc with rfl | hc
      · exact hab
      · exact Nat.lt_trans hab (hb c hc)
    · split
      · next hab => subst hab; exact List.pairwise_cons.2 ⟨hb, hm⟩
      · refine List.pairwise_cons.2 ⟨fun c hc => ?_, ih hm⟩
        rcases Memory.mem_insert hc with rfl | hc
        · simp only; omega
        · exact hb c hc

/-- A store inside the address space keeps the canonical form. -/
theorem Memory.store_wf {m : Memory} {a : Nat} (v : Byte) (h : Memory.wf m)
    (ha : a < Config.memSize) : Memory.wf (Memory.store m a v) := by
  obtain ⟨hs, hv⟩ := h
  unfold Memory.store
  split
  · exact ⟨hs.filter _, fun c hc => hv c (List.mem_filter.1 hc).1⟩
  · next hne =>
    refine ⟨Memory.pairwise_insert a v hs, fun c hc => ?_⟩
    rcases Memory.mem_insert hc with rfl | hc
    · exact ⟨ha, hne⟩
    · exact hv c hc

theorem addr_lt_memSize (a : Addr) : a.toNat < Config.memSize := a.isLt

/-- `MemWrite` keeps the canonical form. -/
theorem State.memWrite_wf {s : State} (a : Addr) (v : Byte) (h : Memory.wf s.mem) :
    Memory.wf (s.memWrite a v).mem :=
  Memory.store_wf v h (addr_lt_memSize a)

/-- The loader's writes keep the canonical form, if the image fits. -/
theorem Memory.load_wf {m : Memory} {k : Nat} {image : List Byte} (h : Memory.wf m)
    (hk : k + image.length ≤ Config.memSize) : Memory.wf (Memory.load m k image) := by
  induction image generalizing m k with
  | nil => exact h
  | cons v image ih =>
    simp only [List.length_cons] at hk
    exact ih (Memory.store_wf v h (by omega)) (by omega)

theorem Memory.nil_wf : Memory.wf [] := by simp [Memory.wf]

/-- The memory of `State.reset` has the canonical form. -/
theorem State.reset_mem_wf : Memory.wf State.reset.mem := Memory.nil_wf

@[simp] theorem Memory.byteAt_nil (a : Nat) : Memory.byteAt [] a = 0 := rfl

/-- Equal memories in canonical form are equal data: the bytes decide the list. -/
theorem Memory.byteAt_of_lt_all {m : Memory} {a : Nat} (h : ∀ c ∈ m, a < c.1) :
    Memory.byteAt m a = 0 := by
  induction m with
  | nil => rfl
  | cons c m ih =>
    obtain ⟨b, w⟩ := c
    have hb : a < b := h (b, w) (by simp)
    rw [Memory.byteAt, if_neg (by omega), ih fun d hd => h d (List.mem_cons_of_mem _ hd)]

end Sys2Proof.Machine
end

