-- ==== Sys2Proof/Laws/Ops.lean ====
section
/-!
SUPPORT. Everything each shared operation can do, said once: reads after writes of registers and
memory, operand checking, and the ALU's shared step.
-/
namespace Sys2Proof.Machine

variable (s : State)

/-! ### The parameters' values in arithmetic (00_scope.md R5, R7) -/

/-- A byte is below 256. -/
theorem byte_toNat_lt (x : Byte) : x.toNat < 256 := x.isLt

/-- An address is below 256. -/
theorem addr_toNat_lt (a : Addr) : a.toNat < 256 := a.isLt

/-- A register index is below 8. -/
theorem regIdx_lt (r : RegIdx) : r.val < 8 := r.isLt

/-! ### Registers -/

@[simp] theorem State.readReg_writeReg_self (r : RegIdx) (v : Byte) :
    (s.writeReg r v).readReg r = v := by
  simp [State.readReg, State.writeReg]

theorem State.readReg_writeReg_other {r d : RegIdx} (v : Byte) (h : r ≠ d) :
    (s.writeReg d v).readReg r = s.readReg r := by
  have hv : d.val ≠ r.val := fun e => h (Fin.ext e.symm)
  simp [State.readReg, State.writeReg, Vector.getElem_set_ne _ _ hv]

/-- A register after a write of another or the same register. -/
theorem State.readReg_writeReg (r d : RegIdx) (v : Byte) :
    (s.writeReg d v).readReg r = if r = d then v else s.readReg r := by
  split
  · next h => rw [h, State.readReg_writeReg_self]
  · next h => exact State.readReg_writeReg_other s v h

@[simp] theorem State.readReg_setPc (r : RegIdx) (v : Addr) :
    (s.setPc v).readReg r = s.readReg r := rfl
@[simp] theorem State.readReg_advance (r : RegIdx) (n : Nat) :
    (s.advance n).readReg r = s.readReg r := rfl
@[simp] theorem State.readReg_memWrite (r : RegIdx) (a : Addr) (v : Byte) :
    (s.memWrite a v).readReg r = s.readReg r := rfl
@[simp] theorem State.readReg_emit (r : RegIdx) (v : Byte) :
    (s.emit v).readReg r = s.readReg r := rfl
@[simp] theorem State.readReg_stop (r : RegIdx) : s.stop.readReg r = s.readReg r := rfl
@[simp] theorem State.readReg_faulted (r : RegIdx) (c : FaultCause) (v : Byte) :
    (s.faulted c v).readReg r = s.readReg r := rfl

@[simp] theorem State.sp_setSp (v : Byte) : (s.setSp v).sp = v :=
  State.readReg_writeReg_self s Config.spIndex v
@[simp] theorem State.sp_setPc (v : Addr) : (s.setPc v).sp = s.sp := rfl
@[simp] theorem State.sp_advance (n : Nat) : (s.advance n).sp = s.sp := rfl
@[simp] theorem State.sp_memWrite (a : Addr) (v : Byte) : (s.memWrite a v).sp = s.sp := rfl

/-- A register after SP is written. -/
theorem State.readReg_setSp (r : RegIdx) (v : Byte) :
    (s.setSp v).readReg r = if r = 7 then v else s.readReg r :=
  State.readReg_writeReg s r Config.spIndex v

/-- SP after a register is written. -/
theorem State.sp_writeReg (d : RegIdx) (v : Byte) :
    (s.writeReg d v).sp = if d = 7 then v else s.sp := by
  have h := State.readReg_writeReg s Config.spIndex d v
  by_cases hd : d = 7
  · subst hd; exact (h.trans (if_pos rfl)).trans (if_pos rfl).symm
  · have h7 : ¬ Config.spIndex = d := fun e => hd e.symm
    exact (h.trans (if_neg h7)).trans (if_neg hd).symm

@[simp] theorem State.pcPlus_setSp (v : Byte) (n : Nat) :
    (s.setSp v).pcPlus n = s.pcPlus n := rfl

theorem State.pcPlus_toNat (n : Nat) : (s.pcPlus n).toNat = (s.pc.toNat + n) % 256 := by
  simp [State.pcPlus]

theorem State.pushAddr_toNat : s.pushAddr.toNat = (s.sp.toNat + 255) % 256 := by
  simp only [State.pushAddr, BitVec.toNat_sub]
  congr 1
  simp
  omega

theorem State.popNext_toNat : s.popNext.toNat = (s.sp.toNat + 1) % 256 := by
  simp [State.popNext]

/-! ### Memory as the CORE sees it -/

@[simp] theorem State.memRead_memWrite_self (a : Addr) (v : Byte) : (s.memWrite a v).memRead a = v :=
  Memory.byteAt_store_self s.mem a.toNat v

theorem State.memRead_memWrite_other {a x : Addr} (v : Byte) (h : x ≠ a) :
    (s.memWrite a v).memRead x = s.memRead x :=
  Memory.byteAt_store_other s.mem v fun e => h (BitVec.eq_of_toNat_eq e)

@[simp] theorem State.memRead_writeReg (r : RegIdx) (v : Byte) (x : Addr) :
    (s.writeReg r v).memRead x = s.memRead x := rfl
@[simp] theorem State.memRead_setSp (v : Byte) (x : Addr) : (s.setSp v).memRead x = s.memRead x := rfl
@[simp] theorem State.memRead_setPc (v x : Addr) : (s.setPc v).memRead x = s.memRead x := rfl
@[simp] theorem State.memRead_advance (n : Nat) (x : Addr) :
    (s.advance n).memRead x = s.memRead x := rfl
@[simp] theorem State.memRead_emit (v : Byte) (x : Addr) : (s.emit v).memRead x = s.memRead x := rfl
@[simp] theorem State.memRead_stop (x : Addr) : s.stop.memRead x = s.memRead x := rfl
@[simp] theorem State.memRead_faulted (c : FaultCause) (v : Byte) (x : Addr) :
    (s.faulted c v).memRead x = s.memRead x := rfl

/-! ### Operands -/

theorem regByte_toNat (r : RegIdx) : (regByte r).toNat = r.val := by
  have h := regIdx_lt r
  simp only [regByte, BitVec.toNat_ofNat, Config.xlen]
  exact Nat.mod_eq_of_lt (by omega)

/-- The byte that names a register is below 8. -/
theorem regByte_lt (r : RegIdx) : (regByte r).toNat < 8 :=
  (regByte_toNat r).symm ▸ regIdx_lt r

@[simp] theorem regIndex?_regByte (r : RegIdx) : regIndex? (regByte r) = some r := by
  have h := regByte_toNat r
  have hlt : (regByte r).toNat < Config.nreg := h ▸ r.isLt
  simp only [regIndex?, dif_pos hlt]
  exact congrArg some (Fin.ext h)

theorem regIndex?_eq_none {b : Byte} (h : 8 ≤ b.toNat) : regIndex? b = none := by
  simp [regIndex?, Nat.not_lt.2 h]

/-- An operand byte names a register, or is 8 or more (30_encoding.md R56). -/
theorem regByte_or_out (b : Byte) : (∃ r, b = regByte r) ∨ 8 ≤ b.toNat := by
  by_cases h : b.toNat < 8
  · refine .inl ⟨⟨b.toNat, h⟩, BitVec.eq_of_toNat_eq ?_⟩
    rw [regByte_toNat]
  · exact .inr (by omega)

@[simp] theorem withReg_regByte (r : RegIdx) (k : RegIdx → Result) :
    withReg (regByte r) s k = k r := by
  simp [withReg]

theorem withReg_out {b : Byte} (h : 8 ≤ b.toNat) (k : RegIdx → Result) :
    withReg b s k = .next (s.faulted .illegalRegister b) := by
  simp [withReg, regIndex?_eq_none h, takeFault]

/-- Everything a checked operand can lead to. -/
theorem withReg_next {b : Byte} {k : RegIdx → Result} {t : State} (h : withReg b s k = .next t) :
    (∃ r, b = regByte r ∧ k r = .next t) ∨
    (8 ≤ b.toNat ∧ t = s.faulted .illegalRegister b) := by
  rcases regByte_or_out b with ⟨r, rfl⟩ | hb
  · exact .inl ⟨r, rfl, by simpa using h⟩
  · rw [withReg_out s hb] at h
    exact .inr ⟨hb, by injection h with h; exact h.symm⟩

/-! ### The ALU's shared step -/

/-- Everything a binary ALU operation can do (40_alu.md R66). -/
theorem aluBinary_next {f : Byte → Byte → Byte} {a b : Byte} {t : State}
    (h : aluBinary f a b s = .next t) :
    (8 ≤ a.toNat ∧ t = s.faulted .illegalRegister a) ∨
    (∃ ra, a = regByte ra ∧ 8 ≤ b.toNat ∧ t = s.faulted .illegalRegister b) ∨
    (∃ ra rb, a = regByte ra ∧ b = regByte rb ∧
      t = s.aluWrite ra (f (s.readReg ra) (s.readReg rb)) 3) := by
  unfold aluBinary at h
  rcases withReg_next s h with ⟨ra, ha, h1⟩ | h1
  · rcases withReg_next s h1 with ⟨rb, hb, h2⟩ | ⟨hb, h2⟩
    · injection h2 with h2
      exact .inr (.inr ⟨ra, rb, ha, hb, h2.symm⟩)
    · exact .inr (.inl ⟨ra, ha, hb, h2⟩)
  · exact .inl h1

/-- Everything a unary ALU operation can do (40_alu.md R66). -/
theorem aluUnary_next {f : Byte → Byte} {a : Byte} {t : State} (h : aluUnary f a s = .next t) :
    (8 ≤ a.toNat ∧ t = s.faulted .illegalRegister a) ∨
    (∃ ra, a = regByte ra ∧ t = s.aluWrite ra (f (s.readReg ra)) 2) := by
  unfold aluUnary at h
  rcases withReg_next s h with ⟨ra, ha, h1⟩ | h1
  · injection h1 with h1
    exact .inr ⟨ra, ha, h1.symm⟩
  · exact .inl h1

/-- Everything a division can do (40_alu.md R66). -/
theorem aluDivide_next {f : Byte → Byte → Byte} {a b : Byte} {t : State}
    (h : aluDivide f a b s = .next t) :
    (8 ≤ a.toNat ∧ t = s.faulted .illegalRegister a) ∨
    (∃ ra, a = regByte ra ∧ 8 ≤ b.toNat ∧ t = s.faulted .illegalRegister b) ∨
    (∃ ra rb, a = regByte ra ∧ b = regByte rb ∧ s.readReg rb = 0 ∧
      t = s.faulted .divisionByZero b) ∨
    (∃ ra rb, a = regByte ra ∧ b = regByte rb ∧ s.readReg rb ≠ 0 ∧
      t = s.aluWrite ra (f (s.readReg ra) (s.readReg rb)) 3) := by
  unfold aluDivide at h
  rcases withReg_next s h with ⟨ra, ha, h1⟩ | h1
  · rcases withReg_next s h1 with ⟨rb, hb, h2⟩ | ⟨hb, h2⟩
    · by_cases h0 : s.readReg rb = 0
      · rw [if_pos h0, takeFault] at h2
        injection h2 with h2
        exact .inr (.inr (.inl ⟨ra, rb, ha, hb, h0, by rw [hb]; exact h2.symm⟩))
      · rw [if_neg h0] at h2
        injection h2 with h2
        exact .inr (.inr (.inr ⟨ra, rb, ha, hb, h0, h2.symm⟩))
    · exact .inr (.inl ⟨ra, ha, hb, h2⟩)
  · exact .inl h1

/-- The destination after an ALU write. -/
@[simp] theorem State.readReg_aluWrite_self (r : RegIdx) (v : Byte) (len : Nat) :
    (s.aluWrite r v len).readReg r = v := by simp [State.aluWrite]

theorem State.readReg_aluWrite_other {r d : RegIdx} (v : Byte) (len : Nat) (h : r ≠ d) :
    (s.aluWrite d v len).readReg r = s.readReg r := State.readReg_writeReg_other s v h

@[simp] theorem State.aluWrite_pc (r : RegIdx) (v : Byte) (len : Nat) :
    (s.aluWrite r v len).pc = s.pcPlus len := rfl
@[simp] theorem State.aluWrite_running (r : RegIdx) (v : Byte) (len : Nat) :
    (s.aluWrite r v len).running = s.running := rfl
@[simp] theorem State.aluWrite_faultCause (r : RegIdx) (v : Byte) (len : Nat) :
    (s.aluWrite r v len).faultCause = s.faultCause := rfl
@[simp] theorem State.aluWrite_faultInfo (r : RegIdx) (v : Byte) (len : Nat) :
    (s.aluWrite r v len).faultInfo = s.faultInfo := rfl
@[simp] theorem State.aluWrite_mem (r : RegIdx) (v : Byte) (len : Nat) :
    (s.aluWrite r v len).mem = s.mem := rfl
@[simp] theorem State.aluWrite_output (r : RegIdx) (v : Byte) (len : Nat) :
    (s.aluWrite r v len).output = s.output := rfl

/-! ### The ALU's functions as arithmetic (40_alu.md R81) -/

theorem addByte_toNat (x y : Byte) : (addByte x y).toNat = (x.toNat + y.toNat) % 256 := by
  simp [addByte]

theorem subByte_toNat (x y : Byte) : (subByte x y).toNat = (x.toNat + 256 - y.toNat) % 256 := by
  have hx := byte_toNat_lt x
  have hy := byte_toNat_lt y
  simp only [subByte, BitVec.toNat_ofInt, Config.xlen] at *
  omega

theorem mulByte_toNat (x y : Byte) : (mulByte x y).toNat = (x.toNat * y.toNat) % 256 := by
  simp [mulByte]

theorem divByte_toNat (x y : Byte) : (divByte x y).toNat = x.toNat / y.toNat := by
  have hx := byte_toNat_lt x
  have hle := Nat.div_le_self x.toNat y.toNat
  simp only [divByte, BitVec.toNat_ofNat]
  exact Nat.mod_eq_of_lt (by omega)

theorem modByte_toNat (x y : Byte) : (modByte x y).toNat = x.toNat % y.toNat := by
  have hx := byte_toNat_lt x
  have hle := Nat.mod_le x.toNat y.toNat
  simp only [modByte, BitVec.toNat_ofNat]
  exact Nat.mod_eq_of_lt (by omega)

theorem notByte_toNat (x : Byte) : (notByte x).toNat = 255 - x.toNat := by
  simp [notByte]

theorem shlByte_toNat (x : Byte) : (shlByte x).toNat = (2 * x.toNat) % 256 := by
  simp only [shlByte, BitVec.toNat_shiftLeft, Nat.shiftLeft_eq, Config.xlen]
  omega

theorem shrByte_toNat (x : Byte) : (shrByte x).toNat = x.toNat / 2 := by
  simp [shrByte, Nat.shiftRight_eq_div_pow]

end Sys2Proof.Machine
end

