-- ==== Sys2Proof/Laws/PerInstr.lean ====
section
/-!
SUPPORT. Statements about every instruction as syntax, one lemma per constructor. `EncodedShape`: the
encoding is the opcode byte and then the operand bytes, as many bytes as the opcode's length says, 1, 2
or 3 (30_encoding.md R53, R61).
-/
namespace Sys2Proof.Laws.EncodedShape

/-- What the family says of one instruction. -/
def Statement (i : Instr) : Prop :=
  (encode i).length = i.length ∧
  (encode i).head? = some (Config.opcodeMap i.mnemonic) ∧
  1 ≤ i.length ∧ i.length ≤ 3

theorem length_bounds (m : Mnemonic) : 1 ≤ m.format.length ∧ m.format.length ≤ 3 := by
  cases m <;> decide

theorem add (a b : Byte) : Statement (.add a b) := ⟨rfl, rfl, length_bounds _⟩
theorem sub (a b : Byte) : Statement (.sub a b) := ⟨rfl, rfl, length_bounds _⟩
theorem mul (a b : Byte) : Statement (.mul a b) := ⟨rfl, rfl, length_bounds _⟩
theorem div (a b : Byte) : Statement (.div a b) := ⟨rfl, rfl, length_bounds _⟩
theorem mod (a b : Byte) : Statement (.mod a b) := ⟨rfl, rfl, length_bounds _⟩
theorem inc (a : Byte) : Statement (.inc a) := ⟨rfl, rfl, length_bounds _⟩
theorem dec (a : Byte) : Statement (.dec a) := ⟨rfl, rfl, length_bounds _⟩
theorem cmp (a b : Byte) : Statement (.cmp a b) := ⟨rfl, rfl, length_bounds _⟩
theorem and (a b : Byte) : Statement (.and a b) := ⟨rfl, rfl, length_bounds _⟩
theorem not (a : Byte) : Statement (.not a) := ⟨rfl, rfl, length_bounds _⟩
theorem or (a b : Byte) : Statement (.or a b) := ⟨rfl, rfl, length_bounds _⟩
theorem xor (a b : Byte) : Statement (.xor a b) := ⟨rfl, rfl, length_bounds _⟩
theorem shl (a : Byte) : Statement (.shl a) := ⟨rfl, rfl, length_bounds _⟩
theorem shr (a : Byte) : Statement (.shr a) := ⟨rfl, rfl, length_bounds _⟩
theorem push (a : Byte) : Statement (.push a) := ⟨rfl, rfl, length_bounds _⟩
theorem pop (a : Byte) : Statement (.pop a) := ⟨rfl, rfl, length_bounds _⟩
theorem prn (a : Byte) : Statement (.prn a) := ⟨rfl, rfl, length_bounds _⟩
theorem call (a : Byte) : Statement (.call a) := ⟨rfl, rfl, length_bounds _⟩
theorem ret : Statement .ret := ⟨rfl, rfl, length_bounds _⟩
theorem ldi (a imm : Byte) : Statement (.ldi a imm) := ⟨rfl, rfl, length_bounds _⟩
theorem halt : Statement .halt := ⟨rfl, rfl, length_bounds _⟩

end Sys2Proof.Laws.EncodedShape
end

