-- ==== Sys2Proof/Laws/Step.lean ====
section
/-!
SUPPORT. What a step is, said once: a RUNNING CORE runs its latch, a stopped one holds its state, the
overflow guards do nothing under `wrap`; and the stack, load and output meanings on an operand that names
a register.
-/
namespace Sys2Proof.Machine

variable {s : State}

theorem State.control_of_runs (h : s.Runs) : s.control = .running := by
  simp [State.control, h.1, h.2]

theorem State.runs_of_control (h : s.control = .running) : s.Runs := by
  unfold State.control at h
  split at h
  · split at h
    · exact ⟨‹_›, ‹_›⟩
    · cases h
  · cases h

theorem guardAddr_wrap (l : Bool) (o : Host.Outcome State Fault Refusal) :
    guardAddr .wrap l o = o := rfl

theorem guardCompleted_wrap (l : Bool) (o : Host.Outcome State Fault Refusal) :
    guardCompleted .wrap l o = o := by
  cases o <;> simp [guardCompleted, guardAddr]

/-- A stopped CORE holds its state, under either treatment of address overflow. -/
theorem stepUnder_of_stopped (h : ¬ s.Runs) (option : AddrOverflow) :
    stepUnder option s = .next s := by
  unfold stepUnder
  cases hc : s.control with
  | running => exact absurd (State.runs_of_control hc) h
  | halted => rfl
  | faulted => rfl

/-- A RUNNING CORE fetches and runs its latch. -/
theorem step_of_runs (h : s.Runs) : step s = runLatch (fetch s) s := by
  simp [step, stepUnder, Config.addrOverflow, State.control_of_runs h, runUnder, guardAddr_wrap,
    guardCompleted_wrap]

/-- PUSH of a register: one expression for the next state. -/
theorem execPush_regByte (r : RegIdx) : execPush (regByte r) s =
    .next (((s.setSp s.pushAddr).memWrite s.pushAddr ((s.setSp s.pushAddr).readReg r)).advance 2) := by
  simp [execPush]

/-- POP into a register. -/
theorem execPop_regByte (r : RegIdx) : execPop (regByte r) s =
    .next (((s.writeReg r (s.memRead s.sp)).setSp
      (s.writeReg r (s.memRead s.sp)).popNext).advance 2) := by
  simp [execPop]

/-- CALL of a register. -/
theorem execCall_regByte (r : RegIdx) : execCall (regByte r) s =
    .next (((s.setSp s.pushAddr).memWrite s.pushAddr (s.pcPlus 2)).setPc
      ((s.setSp s.pushAddr).readReg r)) := by
  simp [execCall]

/-- LDI into a register. -/
theorem execLdi_regByte (r : RegIdx) (imm : Byte) :
    execLdi (regByte r) imm s = .next ((s.writeReg r imm).advance 3) := by
  simp [execLdi]

/-- PRN of a register. -/
theorem execPrn_regByte (r : RegIdx) :
    execPrn (regByte r) s = .next ((s.emit (s.readReg r)).advance 2) := by
  simp [execPrn]

end Sys2Proof.Machine
end

