-- ==== Sys2Proof/Tests/Slice0.lean ====
section
/-!
SUPPORT. Tests of single operations and single steps, their expected results from spec/95_test_vectors.md
(the vector's number is in each comment) or worked out by hand from the rule named; and for each statement
with hypotheses a witness that meets them.
-/
namespace Sys2Proof.Tests

open Sys2Proof.Machine

/-- The next state of an outcome, so that its fields can be compared. -/
def nextOf : Host.Outcome State Fault Refusal → Option State
  | .next t => some t
  | .fault _ => none
  | .refused _ => none

/-- A RUNNING state with given registers, pc and memory. -/
def st (regs : Vector Byte 8) (pc : Byte) (mem : Memory) : State :=
  { State.reset with regs := regs, pc := pc, mem := mem }

/-- A RUNNING state at pc 0x10 with x0, x1 and SP = 0xF4, the other registers 0. -/
def st2 (x0 x1 : Byte) : State := st #v[x0, x1, 0, 0, 0, 0, 0, 0xF4] 0x10 []

/-- A RUNNING state at pc 0 with SP = `sp`, x0 to x6 = 0 to 6, and the given bytes from address 0. -/
def code (sp : Byte) (mem : Memory) : State := st #v[0, 1, 2, 3, 4, 5, 6, sp] 0 mem

/-- A register and the pc after an instruction. -/
def regPc (r : RegIdx) (o : Host.Outcome State Fault Refusal) : Option (Byte × Byte) :=
  (nextOf o).map fun t => (t.readReg r, t.pc)

/-- Cause, info, pc, running after an instruction. -/
def faultOf (o : Host.Outcome State Fault Refusal) : Option (FaultCause × Byte × Byte × Bool) :=
  (nextOf o).map fun t => (t.faultCause, t.faultInfo, t.pc, t.running)

/-- 00_scope.md R5: the parameters at the values its table shows; an address of `AWIDTH` bits names
each of the `MEM_SIZE` cells and nothing else. -/
theorem test_parameters :
    (Config.xlen, Config.nreg, Config.awidth, Config.memSize) = (8, 8, 8, 256) ∧
    Config.memSize = 2 ^ Config.awidth ∧ Config.spIndex.val = 7 ∧
    (Config.spInit, Config.pcInit, Config.addrOverflow) = (0xF4, 0, .wrap) := by decide

/-! ### WellFormed: each check refuses a term -/

theorem test_wf_rr_refuses_a :
    [Instr.add 8 0, .sub 8 0, .mul 8 0, .div 8 0, .mod 8 0, .and 8 0, .or 8 0, .xor 8 0].all
      (fun i => !WellFormed i) = true := by decide
theorem test_wf_rr_refuses_b :
    [Instr.add 0 8, .sub 0 8, .mul 0 8, .div 0 8, .mod 0 8, .and 0 8, .or 0 8, .xor 0 8].all
      (fun i => !WellFormed i) = true := by decide
theorem test_wf_r_refuses :
    [Instr.inc 8, .dec 255, .not 8, .shl 8, .shr 8, .push 8, .pop 8, .prn 8, .call 8, .ldi 8 0].all
      (fun i => !WellFormed i) = true := by decide
theorem test_wf_accepts :
    [Instr.add 7 7, .inc 7, .ldi 7 255, .cmp 255 9, .ret, .halt].all WellFormed = true := by decide

/-! ### Decoding: words written out from 30_encoding.md R55, bit by bit -/

theorem test_decode_add : decode 0b10100000 0b00000000 0b00000001 = .ok (.add 0 1) := by decide
theorem test_decode_sub : decode 0b10100001 0b00000010 0b00000011 = .ok (.sub 2 3) := by decide
theorem test_decode_mul : decode 0b10100010 0b00000000 0b00000001 = .ok (.mul 0 1) := by decide
theorem test_decode_div : decode 0b10100011 0b00000101 0b00000111 = .ok (.div 5 7) := by decide
theorem test_decode_mod : decode 0b10100100 0b00000010 0b00000001 = .ok (.mod 2 1) := by decide
theorem test_decode_inc : decode 0b01100101 0b00000111 0b11111111 = .ok (.inc 7) := by decide
theorem test_decode_dec : decode 0b01100110 0b00000100 0b00000000 = .ok (.dec 4) := by decide
theorem test_decode_cmp : decode 0b10100111 0b11111111 0b00001001 = .ok (.cmp 255 9) := by decide
theorem test_decode_and : decode 0b10101000 0b00000000 0b00000001 = .ok (.and 0 1) := by decide
theorem test_decode_not : decode 0b01101001 0b00000011 0b00000000 = .ok (.not 3) := by decide
theorem test_decode_or : decode 0b10101010 0b00000000 0b00000001 = .ok (.or 0 1) := by decide
theorem test_decode_xor : decode 0b10101011 0b00000011 0b00000011 = .ok (.xor 3 3) := by decide
theorem test_decode_shl : decode 0b10101100 0b00000000 0b11111111 = .ok (.shl 0) := by decide
theorem test_decode_shr : decode 0b10101101 0b00000110 0b00000001 = .ok (.shr 6) := by decide
theorem test_decode_push : decode 0b01000101 0b00000111 0b00000000 = .ok (.push 7) := by decide
theorem test_decode_pop : decode 0b01000110 0b00000001 0b00000000 = .ok (.pop 1) := by decide
theorem test_decode_prn : decode 0b01000111 0b00010000 0b00000000 = .ok (.prn 16) := by decide
theorem test_decode_call : decode 0b01010000 0b00000001 0b00000000 = .ok (.call 1) := by decide
theorem test_decode_ret : decode 0b00010001 0b11111111 0b11111111 = .ok .ret := by decide
theorem test_decode_ldi : decode 0b10000010 0b00000000 0b00001000 = .ok (.ldi 0 8) := by decide
theorem test_decode_halt : decode 0b00000001 0b11111111 0b11111111 = .ok .halt := by decide
theorem test_decode_zero : decode 0 0 0 = .error (.illegalOpcode 0) := by decide
theorem test_decode_table_word : decodeTableWord 24 0x010282 = some (.ldi 2 1) := by decide
theorem test_decode_truncated : decodeBytes [0xA0, 1] = .error .truncated := by decide
theorem test_encode_lengths :
    [encode (.ldi 1 42), encode (.shl 3), encode .ret] = [[0x82, 1, 42], [0xAC, 3], [0x11]] := by
  decide

/-! ### The ALU, 95_test_vectors.md section 2.1 -/

/-- A1. -/
theorem test_add_wraps : regPc 0 (exec (.add 0 1) (st2 200 100)) = some (44, 0x13) := by decide
/-- A3: A = B doubles. -/
theorem test_add_same : regPc 0 (exec (.add 0 0) (st2 0x80 0)) = some (0, 0x13) := by decide
/-- A4's values. -/
theorem test_sub_wraps : regPc 0 (exec (.sub 0 1) (st2 5 7)) = some (254, 0x13) := by decide
/-- A7. -/
theorem test_mul_low_byte : regPc 0 (exec (.mul 0 1) (st2 20 13)) = some (4, 0x13) := by decide
/-- A10. -/
theorem test_mul_square : regPc 0 (exec (.mul 0 0) (st2 0xFF 0)) = some (1, 0x13) := by decide
/-- A11. -/
theorem test_div_floor : regPc 0 (exec (.div 0 1) (st2 200 7)) = some (28, 0x13) := by decide
/-- A15. -/
theorem test_div_by_zero :
    faultOf (exec (.div 0 1) (st2 9 0)) = some (.divisionByZero, 1, 0x10, true) := by decide
/-- A17's values. -/
theorem test_mod_rem : regPc 0 (exec (.mod 0 1) (st2 200 7)) = some (4, 0x13) := by decide
/-- A20's values. -/
theorem test_mod_by_zero :
    faultOf (exec (.mod 0 1) (st2 6 0)) = some (.divisionByZero, 1, 0x10, true) := by decide
/-- A21. -/
theorem test_inc_wraps : regPc 0 (exec (.inc 0) (st2 0xFF 0)) = some (0, 0x12) := by decide
/-- A40: an ALU operation may change SP. -/
theorem test_inc_sp : regPc 7 (exec (.inc 7) (st2 0 0)) = some (0xF5, 0x12) := by decide
/-- A23. -/
theorem test_dec_wraps : regPc 0 (exec (.dec 0) (st2 0 0)) = some (0xFF, 0x12) := by decide
/-- A25. -/
theorem test_and : regPc 0 (exec (.and 0 1) (st2 0xCC 0xAA)) = some (0x88, 0x13) := by decide
/-- A26. -/
theorem test_or : regPc 0 (exec (.or 0 1) (st2 0xCC 0xAA)) = some (0xEE, 0x13) := by decide
/-- A27. -/
theorem test_xor : regPc 0 (exec (.xor 0 1) (st2 0xCC 0xAA)) = some (0x66, 0x13) := by decide
/-- A31. -/
theorem test_not_zero : regPc 0 (exec (.not 0) (st2 0 0)) = some (0xFF, 0x12) := by decide
/-- A33. -/
theorem test_shl : regPc 0 (exec (.shl 0) (st2 0x81 0)) = some (0x02, 0x12) := by decide
/-- A35. -/
theorem test_shr : regPc 0 (exec (.shr 0) (st2 0x81 0)) = some (0x40, 0x12) := by decide
/-- A38. -/
theorem test_cmp_checks_nothing :
    (nextOf (exec (.cmp 0xFF 9) (st2 1 2))).map (fun t => (t.regs, t.pc, t.faultCause)) =
      some ((st2 1 2).regs, 0x13, .none) := by decide

/-! ### Stack and control, section 2.2 -/

/-- S1. -/
theorem test_push :
    (nextOf (exec (.push 0) (st2 0x2A 0))).map (fun t => (t.sp, t.mem, t.pc)) =
      some (0xF3, [(0xF3, 0x2A)], 0x12) := by decide
/-- S2: PUSH R7 stores the decremented SP. -/
theorem test_push_sp :
    (nextOf (exec (.push 7) (st2 0 0))).map (fun t => (t.sp, t.mem)) =
      some (0xF3, [(0xF3, 0xF3)]) := by decide
/-- S7: SP wraps from 255 to 0. -/
theorem test_pop_wraps :
    (nextOf (exec (.pop 0) (code 0xFF [(0xFF, 0x33)]))).map (fun t => (t.readReg 0, t.sp, t.pc)) =
      some (0x33, 0, 2) := by decide
/-- S6: POP R7. -/
theorem test_pop_sp :
    (nextOf (exec (.pop 7) (code 0xF3 [(0xF3, 0x10)]))).map (fun t => t.sp) = some 0x11 := by decide
/-- S10: the return address wraps. -/
theorem test_call_wraps :
    (nextOf (exec (.call 1) (st #v[0, 0x10, 0, 0, 0, 0, 0, 0xF4] 0xFE [(0xF3, 9)]))).map
      (fun t => (t.sp, t.memRead 0xF3, t.pc)) = some (0xF3, 0, 0x10) := by decide
/-- S11: CALL R7 jumps to the decremented SP. -/
theorem test_call_sp :
    (nextOf (exec (.call 7) (st #v[0, 0, 0, 0, 0, 0, 0, 0xF4] 0x20 []))).map
      (fun t => (t.sp, t.mem, t.pc)) = some (0xF3, [(0xF3, 0x22)], 0xF3) := by decide
/-- S14. -/
theorem test_ret_wraps :
    (nextOf (exec .ret (code 0xFF [(0xFF, 0x40)]))).map (fun t => (t.pc, t.sp)) =
      some (0x40, 0) := by decide

/-! ### Load, output, halt, faults and fetch, sections 2.3 to 2.5 -/

/-- L4: fetched across the top of memory. -/
theorem test_ldi_across_top :
    regPc 1 (step (st #v[0, 0, 0, 0, 0, 0, 0, 0] 0xFE [(0, 0x2A), (0xFE, 0x82), (0xFF, 1)])) =
      some (0x2A, 1) := by decide
/-- L6. -/
theorem test_prn_sp :
    (nextOf (exec (.prn 7) (st2 0 0))).map (fun t => (t.output, t.pc)) = some ([244], 0x12) := by
  decide
/-- L9, L8: HALT's operand bytes are ignored, pc stays. -/
theorem test_halt :
    (nextOf (step (code 0 [(0, 0x01), (1, 0xFF), (2, 0xFF)]))).map
      (fun t => (t.running, t.pc, t.control)) = some (false, 0, .halted) := by decide
/-- X2: 0x00 is not a NOP. -/
theorem test_zero_opcode_faults :
    faultOf (step State.reset) = some (.illegalInstruction, 0, 0, true) := by decide
/-- X3: decode comes before operand checks. -/
theorem test_illegal_before_operands :
    faultOf (step (code 0xF4 [(0, 0x12), (1, 8), (2, 8)])) =
      some (.illegalInstruction, 0x12, 0, true) := by decide
/-- X6: A is checked before B. -/
theorem test_a_before_b :
    faultOf (step (code 0xF4 [(0, 0xA0), (1, 9), (2, 0x20)])) =
      some (.illegalRegister, 9, 0, true) := by decide
/-- X7: the operand check comes before the divisor's. -/
theorem test_register_before_divisor :
    faultOf (step (code 0xF4 [(0, 0xA3), (1, 1), (2, 9)])) =
      some (.illegalRegister, 9, 0, true) := by decide
/-- X10: no return address is pushed. -/
theorem test_call_bad_register :
    (nextOf (exec (.call 0xFF) (st2 0 0))).map (fun t => (t.sp, t.mem, t.faultInfo)) =
      some (0xF4, [], 0xFF) := by decide
/-- F1: an operand fetched from address 0. -/
theorem test_prn_across_top :
    (nextOf (step (st #v[5, 0, 0, 0, 0, 0, 0, 0] 0xFF [(0xFF, 0x47)]))).map
      (fun t => (t.output, t.pc)) = some ([5], 1) := by decide
/-- X14 (RET at 0) and F4: RET's transactions are the three fetch reads and the read at SP. -/
theorem test_ret_transactions :
    (code 0xF3 [(0, 0x11), (0xF3, 8)]).transactions =
      [.read 0 0x11, .read 1 0, .read 2 0, .read 0xF3 8] := by decide
/-- A store of 0 takes the entry away (the canonical form). -/
theorem test_store_zero :
    Memory.store [(3, 1), (5, 2)] 3 0 = [(5, 2)] ∧ Memory.store [(5, 2)] 3 1 = [(3, 1), (5, 2)] := by
  decide
/-- The host's entry point: a word placed at the fetch runs. -/
theorem test_fetch_word :
    regPc 0 (step (State.reset.withFetchWord 24 0x080082)) = some (8, 3) := by decide
/-- W6's image, boot only: the first instruction's byte is at address 0 and the last at 11. -/
theorem test_boot :
    (boot Config.regInit [0x82, 0, 8, 0x82, 1, 9, 0xA0, 0, 1, 0x47, 0, 0x01]).map
      (fun s => (s.memRead 0, s.memRead 11, s.memRead 12, s.sp)) =
      some (0x82, 0x01, 0, 0xF4) := by decide

/-! ### Witnesses: each statement's hypotheses are met, each clause at a boundary -/

/-- An opcode map other than the hardware's that gives no two mnemonics one byte. -/
def otherMap : OpcodeMap := fun m => BitVec.ofNat 8 (Mnemonic.all.idxOf m)

theorem witness_DecodeUndoesEncode : Function.Injective otherMap := by
  intro a b h
  cases a <;> cases b <;> first | rfl | exact absurd h (by decide)

theorem witness_EncodeUndoesDecode : decodeBytes [0x65, 3, 9] = .ok (.inc 3, [9]) := by decide

theorem witness_IllegalOpcodesFault :
    (0xFF : Byte) ∉ legalOpcodes ∧ (0x01 : Byte) ∈ legalOpcodes ∧ (0xAD : Byte) ∈ legalOpcodes ∧
    (State.reset.running = true ∧ State.reset.faultCause = .none) ∧
    State.reset.memRead State.reset.pc ∉ legalOpcodes := by decide

theorem witness_UnusedBytesIgnored :
    (decode 0x11 0xFF 0xFF = .ok .ret ∧ Instr.ret.length = 1) ∧
    (decode 0xAC 1 0xFF = .ok (.shl 1) ∧ (Instr.shl 1).length = 2) := by decide

/-- Two words of one opcode, one opcode of each length (SHL's is 2), a list with bytes left over, and a
RUNNING state. -/
theorem witness_LengthFromOpcodeAlone :
    (decode 0x45 0 0 = .ok (.push 0) ∧ decode 0x45 0xFF 0xFF = .ok (.push 0xFF)) ∧
    (0x01 : Byte) ∈ opcodesOfLength 1 ∧ (0xAC : Byte) ∈ opcodesOfLength 2 ∧
    (0x82 : Byte) ∈ opcodesOfLength 3 ∧ decodeBytes [0xAC, 3, 9, 9] = .ok (.shl 3, [9, 9]) ∧
    (State.reset.running = true ∧ State.reset.faultCause = .none) := by decide

/-- The operand checks of every ALU, stack, load and output rule: 8 and 255 are refused, B only after
a good A. -/
theorem witness_operand_checks :
    8 ≤ (8 : Byte).toNat ∧ 8 ≤ (255 : Byte).toNat ∧ regByte 7 = 7 ∧
    faultOf (exec (.add 8 8) (st2 0 0)) = some (.illegalRegister, 8, 0x10, true) ∧
    faultOf (exec (.add (regByte 7) 255) (st2 0 0)) = some (.illegalRegister, 255, 0x10, true) := by
  decide

/-- DIV and MOD: a zero divisor and the least other one. -/
theorem witness_DivResult_ModResult :
    (st2 9 0).readReg 1 = 0 ∧ (st2 9 1).readReg 1 ≠ 0 := by decide

theorem witness_AluDependsOnOperandsAlone :
    isAlu (.add 0 1) = true ∧
    (∀ r, regByte r ∈ regOperands (.add 0 1) →
      (st2 3 4).readReg r = (st #v[3, 4, 9, 9, 9, 9, 9, 9] 0xFF [(1, 1)]).readReg r) ∧
    instrFault (.add 0 1) (st2 3 4) = none := by decide

theorem witness_CallRetRoundTrip :
    (nextOf (exec (.call (regByte 1)) (st2 0 0x40))).map (fun t => (t.sp, t.memRead t.sp)) =
      some (0xF3, 0x12) := by decide

theorem witness_NextPc :
    instrFault (.div 0 1) (st2 1 0) ≠ none ∧ instrFault (.inc 7) (st2 1 0) = none ∧
    instrFault (.call (regByte 7)) (st2 1 0) = none ∧ instrFault .ret (st2 1 0) = none ∧
    instrFault .halt (st2 1 0) = none := by decide

theorem witness_OnlyHaltClearsRunning :
    ∃ t, step (code 0 [(0, 0x01)]) = .next t ∧ t.running ≠ (code 0 [(0, 0x01)]).running :=
  ⟨_, rfl, by decide⟩

/-- The states of the three faults, each reached by one step, and reset: all meet the invariant. -/
theorem witness_FaultInfoMeaning :
    State.Inv State.reset ∧
    (State.reset.faulted .illegalInstruction 0).Inv ∧
    ((code 0 [(0, 0xA3), (1, 7)]).faulted .divisionByZero 0).Inv ∧
    ((code 0 [(0, 0xA0), (1, 7), (2, 8)]).faulted .illegalRegister 8).Inv :=
  ⟨⟨by decide, rfl, rfl⟩, ⟨by decide, rfl⟩, ⟨by decide, rfl⟩, ⟨by decide, rfl⟩⟩

/-- One RUNNING state per check of R101, and one that none applies to. -/
theorem witness_FirstFailedCheckIsTaken :
    (State.reset.running = true ∧ State.reset.faultCause = .none) ∧
    firstFault (fetch State.reset) State.reset = some (.illegalInstruction, 0) ∧
    (let s := code 0xF4 [(0, 0xA0), (1, 8), (2, 9)]
     firstFault (fetch s) s = some (.illegalRegister, 8)) ∧
    (let s := code 0xF4 [(0, 0xA4), (2, 9)]
     firstFault (fetch s) s = some (.illegalRegister, 9)) ∧
    (let s := code 0xF4 [(0, 0xA4), (1, 7)]
     firstFault (fetch s) s = some (.divisionByZero, 0)) ∧
    (let s := code 0xF4 [(0, 0xA4), (2, 7)]
     firstFault (fetch s) s = none) := by decide

theorem witness_IllFormedRaisesIllegalRegister :
    WellFormed (.add 7 8) = false ∧ WellFormed (.ldi 8 0) = false ∧ WellFormed (.div 7 7) = true ∧
    WellFormed (.cmp 8 8) = true := by decide

theorem witness_StepRunsDecoded :
    (State.reset.running = true ∧ State.reset.faultCause = .none) ∧
    (let s := code 0xF4 [(0, 0x45), (1, 7)]
     decode (s.memRead s.pc) (s.memRead (s.pc + 1)) (s.memRead (s.pc + 2)) = .ok (.push 7)) ∧
    (let s := State.reset
     decode (s.memRead s.pc) (s.memRead (s.pc + 1)) (s.memRead (s.pc + 2)) =
       .error (.illegalOpcode 0)) := by decide

theorem witness_StoppedIsTerminal :
    State.reset.stop.running = false ∧
    (State.reset.faulted .illegalInstruction 0).faultCause ≠ .none ∧
    (∃ t, Sys2Proof.core.run 2 State.reset.stop = .next t) ∧
    ∃ t, Sys2Proof.core.run 2 (State.reset.faulted .illegalInstruction 0) = .next t :=
  ⟨rfl, by decide, ⟨_, rfl⟩, ⟨_, rfl⟩⟩

theorem witness_StepKeepsInvariant : State.Inv State.reset ∧ ∃ t, step State.reset = .next t :=
  ⟨⟨by decide, rfl, rfl⟩, _, rfl⟩

theorem witness_ResetMeetsInvariant : Memory.wf (code 0 [(0, 1), (0xFF, 2)]).mem := by decide

/-- pc 254 for the fetch clause; pc 252 with SP 1 for the clause that runs; a stopped state. -/
theorem witness_AddressOverflowOption :
    (let s := st #v[0, 0, 0, 0, 0, 0, 0, 1] 254 []
     (s.running = true ∧ s.faultCause = .none) ∧ 254 ≤ s.pc.toNat) ∧
    (let s := st #v[0, 0, 0, 0, 0, 0, 0, 1] 252 [(252, 0x45)]
     s.pc.toNat ≤ 252 ∧ s.sp ≠ 0 ∧ s.sp ≠ 255 ∧
     decode (fetch s).opcode (fetch s).opA (fetch s).opB = .ok (.push 0)) ∧
    State.reset.stop.running ≠ true := by decide

/-- The option itself: POP R7 of the byte 255 leaves the range after the register write. -/
theorem test_overflow_option_pop :
    nextOf (stepUnder .fault (code 0xF0 [(0, 0x46), (1, 7), (0xF0, 0xFF)])) = none ∧
    (nextOf (stepUnder .fault (code 0xF0 [(0, 0x46), (1, 7), (0xF0, 0xFE)]))).isSome = true := by
  decide

theorem witness_TransactionsExplainMemory_OutputIsNotReadable :
    (∃ t, step (code 0 [(0, 0x47), (1, 7)]) = .next t) ∧
    (∃ t, step State.reset.stop = .next t) := ⟨⟨_, rfl⟩, ⟨_, rfl⟩⟩

/-- One RUNNING state per clause: a failed check; PUSH, POP, CALL, RET at SP = 0 or 255; an instruction
with no transaction of its own. -/
theorem witness_TransactionsOfEachInstruction :
    let decodes (s : State) (i : Instr) : Prop :=
      (s.running = true ∧ s.faultCause = .none) ∧
        decode (fetch s).opcode (fetch s).opA (fetch s).opB = .ok i ∧ instrFault i s = none
    firstFault (fetch State.reset) State.reset ≠ none ∧
    decodes (code 0 [(0, 0x45), (1, 7)]) (.push (regByte 7)) ∧
    decodes (code 255 [(0, 0x46), (1, 7)]) (.pop (regByte 7)) ∧
    decodes (code 0 [(0, 0x50)]) (.call (regByte 0)) ∧
    decodes (code 255 [(0, 0x11)]) .ret ∧ decodes (code 0 [(0, 0x82), (2, 9)]) (.ldi 0 9) := by
  decide

/-- SP = 0: the store goes to address 255. -/
theorem witness_OnlyPushAndCallStore :
    ∃ t, step (code 0 [(0, 0x45), (1, 3)]) = .next t ∧
      t.memRead 255 ≠ (code 0 [(0, 0x45), (1, 3)]).memRead 255 := ⟨_, rfl, by decide⟩

/-- SP = 3: the push overwrites the next instruction's opcode at address 2. -/
theorem witness_NextFetchSeesPush :
    let s := code 3 [(0, 0x45), (1, 1)]
    (s.running = true ∧ s.faultCause = .none) ∧ s.memRead s.pc = 0x45 ∧
      s.memRead (s.pcPlus 1) = regByte 1 ∧ s.pcPlus 2 = s.pushAddr := by decide

/-- SP = 6 and the target is x4 = 4: the stored return address is the next instruction's operand. -/
theorem witness_NextFetchSeesCall :
    let s := code 6 [(0, 0x50), (1, 4)]
    (s.running = true ∧ s.faultCause = .none) ∧ s.memRead s.pc = 0x50 ∧
      s.memRead (s.pcPlus 1) = regByte 4 ∧ s.readReg 4 + 1 = s.sp - 1 := by decide

theorem witness_OutputEventsAreAppended :
    (code 9 [(0, 0x47), (1, 7)]).outEvent = some 9 ∧
    (code 9 [(0, 0x47), (1, 7)]).outPort.outValid = true ∧
    ∃ t, Sys2Proof.core.run 1 (code 9 [(0, 0x47), (1, 7)]) = .next t := ⟨by decide, by decide, _, rfl⟩

theorem witness_BootLoadsImage :
    (List.replicate 256 (1 : Byte)).length ≤ 256 ∧ 256 < (List.replicate 257 (1 : Byte)).length :=
  ⟨Nat.le_of_eq List.length_replicate, by rw [List.length_replicate]; decide⟩

/-- A RUNNING state whose step stores, and the micro-step counts at both ends of the range. -/
theorem witness_FsmRefinesStep_ResetDuringInstruction :
    (code 0 [(0, 0x45)]).Runs ∧ (∃ t, step (code 0 [(0, 0x45)]) = .next t) ∧ 0 ≤ 5 ∧ 5 ≤ 5 :=
  ⟨⟨rfl, rfl⟩, ⟨_, rfl⟩, by decide, by decide⟩

end Sys2Proof.Tests
end

section
/-!
SUPPORT. What one instruction can do, said once (60_exceptions.md R101, R102): it takes the first failed
check, or it completes in one of nine ways; what a step can do, said from that; and the statements of
10_state.md that rest on it.
-/
namespace Sys2Proof.Machine

variable {i : Instr} {s t : State}

/-! ### The checks against the operand bytes (60_exceptions.md R101) -/

theorem regByte_injective : Function.Injective regByte := fun A B h => by
  simpa using congrArg regIndex? h

theorem instrFault_of_first_out {a : Byte} {rest : List Byte} (hr : regOperands i = a :: rest)
    (ha : 8 ≤ a.toNat) : instrFault i s = some (.illegalRegister, a) := by
  simp [instrFault, hr, ha]

theorem instrFault_of_second_out {A : RegIdx} {b : Byte} (hr : regOperands i = [regByte A, b])
    (hb : 8 ≤ b.toNat) : instrFault i s = some (.illegalRegister, b) := by
  simp [instrFault, hr, hb, regByte_lt A]

/-- Operands that name registers leave the divisor's check alone. -/
theorem instrFault_of_registers (hr : ∀ b ∈ regOperands i, ∃ A, b = regByte A) :
    instrFault i s = zeroDivisor i s := by
  have hfind : (regOperands i).find? (fun b => decide (Config.nreg ≤ b.toNat)) = none := by
    refine List.find?_eq_none.2 fun b hb => ?_
    obtain ⟨A, rfl⟩ := hr b hb
    simp [regByte_lt A]
  simp [instrFault, hfind]

theorem zeroDivisor_of_no_divisor (hd : divisorOperand i = none) : zeroDivisor i s = none := by
  simp [zeroDivisor, hd]

theorem zeroDivisor_of_register {B : RegIdx} (hd : divisorOperand i = some (regByte B)) :
    zeroDivisor i s = if s.readReg B = 0 then some (.divisionByZero, regByte B) else none := by
  simp [zeroDivisor, hd]

/-! ### What one instruction can do -/

/-- The ways in which an instruction that passes its checks goes from `s` to a next state, one per
shape of effect. The byte an ALU operation writes is left open: its own rule gives it. -/
inductive Completes (i : Instr) (s : State) : State → Prop
  | alu {A : RegIdx} {rest : List Byte} (v : Byte) (hi : isAlu i = true)
      (hr : regOperands i = regByte A :: rest) : Completes i s (s.aluWrite A v i.length)
  | cmp {a b : Byte} (hi : i = .cmp a b) : Completes i s (s.advance 3)
  | push {A : RegIdx} (hi : i = .push (regByte A)) : Completes i s
      (((s.setSp s.pushAddr).memWrite s.pushAddr ((s.setSp s.pushAddr).readReg A)).advance 2)
  | pop {A : RegIdx} (hi : i = .pop (regByte A)) : Completes i s
      (((s.writeReg A (s.memRead s.sp)).setSp (s.writeReg A (s.memRead s.sp)).popNext).advance 2)
  | prn {A : RegIdx} (hi : i = .prn (regByte A)) :
      Completes i s ((s.emit (s.readReg A)).advance 2)
  | call {A : RegIdx} (hi : i = .call (regByte A)) : Completes i s
      (((s.setSp s.pushAddr).memWrite s.pushAddr (s.pcPlus 2)).setPc
        ((s.setSp s.pushAddr).readReg A))
  | ret (hi : i = .ret) : Completes i s
      ((s.setPc (s.memRead s.sp)).setSp (s.setPc (s.memRead s.sp)).popNext)
  | ldi {A : RegIdx} {imm : Byte} (hi : i = .ldi (regByte A) imm) :
      Completes i s ((s.writeReg A imm).advance 3)
  | halt (hi : i = .halt) : Completes i s s.stop

/-- The next states of an instruction: the first failed check is taken, or, if none fails, the
instruction completes (60_exceptions.md R101 to R103). -/
inductive ExecCase (i : Instr) (s : State) : State → Prop
  | fault {c : FaultCause} {v : Byte} (hf : instrFault i s = some (c, v)) (hc : c ≠ .none) :
      ExecCase i s (s.faulted c v)
  | done {t : State} (hf : instrFault i s = none) (ht : Completes i s t) : ExecCase i s t

/-- A result that is one of the next states of `i`. -/
def Answers (i : Instr) (s : State) (r : Result) : Prop := ∃ t, r = .next t ∧ ExecCase i s t

/-- An instruction that checks nothing. -/
theorem answers_of_no_operand (hr : regOperands i = []) (hd : divisorOperand i = none)
    (ht : Completes i s t) : Answers i s (.next t) := by
  refine ⟨t, rfl, .done ?_ ht⟩
  rw [instrFault_of_registers (by simp [hr]), zeroDivisor_of_no_divisor hd]

/-- An instruction with one register operand. -/
theorem answers_of_operand {a : Byte} {k : RegIdx → Result} (hr : regOperands i = [a])
    (hd : divisorOperand i = none)
    (hk : ∀ A, a = regByte A → ∃ t, withReg a s k = .next t ∧ Completes i s t) :
    Answers i s (withReg a s k) := by
  rcases regByte_or_out a with ⟨A, hA⟩ | ha
  · obtain ⟨t, h, ht⟩ := hk A hA
    refine ⟨t, h, .done ?_ ht⟩
    rw [instrFault_of_registers (by simp [hr, hA]), zeroDivisor_of_no_divisor hd]
  · exact ⟨_, withReg_out s ha k, .fault (instrFault_of_first_out hr ha) (by decide)⟩

theorem answers_aluUnary {f : Byte → Byte} {a : Byte} (hi : isAlu i = true)
    (hr : regOperands i = [a]) (hd : divisorOperand i = none) (hl : i.length = 2) :
    Answers i s (aluUnary f a s) := by
  refine answers_of_operand hr hd fun A hA => ?_
  subst hA
  exact ⟨_, withReg_regByte s A _, hl ▸ .alu _ hi hr⟩

/-- An instruction with two register operands: A is checked first, then B. -/
theorem answers_of_two_operands {a b : Byte} {k : RegIdx → RegIdx → Result}
    (hr : regOperands i = [a, b])
    (hk : ∀ A B, a = regByte A → b = regByte B → Answers i s (k A B)) :
    Answers i s (withReg a s fun A => withReg b s (k A)) := by
  rcases regByte_or_out a with ⟨A, rfl⟩ | ha
  · rw [withReg_regByte]
    rcases regByte_or_out b with ⟨B, rfl⟩ | hb
    · rw [withReg_regByte]
      exact hk A B rfl rfl
    · exact ⟨_, withReg_out s hb _, .fault (instrFault_of_second_out hr hb) (by decide)⟩
  · exact ⟨_, withReg_out s ha _, .fault (instrFault_of_first_out hr ha) (by decide)⟩

theorem answers_aluBinary {f : Byte → Byte → Byte} {a b : Byte} (hi : isAlu i = true)
    (hr : regOperands i = [a, b]) (hd : divisorOperand i = none) (hl : i.length = 3) :
    Answers i s (aluBinary f a b s) := by
  refine answers_of_two_operands hr fun A B hA hB => ?_
  subst hA hB
  refine ⟨_, rfl, .done ?_ (hl ▸ .alu _ hi hr)⟩
  rw [instrFault_of_registers (by simp [hr]), zeroDivisor_of_no_divisor hd]

theorem answers_aluDivide {f : Byte → Byte → Byte} {a b : Byte} (hi : isAlu i = true)
    (hr : regOperands i = [a, b]) (hd : divisorOperand i = some b) (hl : i.length = 3) :
    Answers i s (aluDivide f a b s) := by
  refine answers_of_two_operands hr fun A B hA hB => ?_
  subst hA hB
  have hf := (instrFault_of_registers (s := s) (by simp [hr])).trans (zeroDivisor_of_register hd)
  by_cases h0 : s.readReg B = 0
  · exact ⟨_, if_pos h0, .fault (hf.trans (if_pos h0)) (by decide)⟩
  · exact ⟨_, if_neg h0, .done (hf.trans (if_neg h0)) (hl ▸ .alu _ hi hr)⟩

/-- Every instruction answers a next state in every state, and this is all it can be. -/
theorem exec_answers (i : Instr) (s : State) : Answers i s (exec i s) := by
  cases i with
  | add a b => exact answers_aluBinary rfl rfl rfl rfl
  | sub a b => exact answers_aluBinary rfl rfl rfl rfl
  | mul a b => exact answers_aluBinary rfl rfl rfl rfl
  | div a b => exact answers_aluDivide rfl rfl rfl rfl
  | mod a b => exact answers_aluDivide rfl rfl rfl rfl
  | inc a => exact answers_aluUnary (f := fun x => addByte x 1) rfl rfl rfl rfl
  | dec a => exact answers_aluUnary (f := fun x => subByte x 1) rfl rfl rfl rfl
  | cmp a b => exact answers_of_no_operand rfl rfl (.cmp rfl)
  | and a b => exact answers_aluBinary rfl rfl rfl rfl
  | not a => exact answers_aluUnary rfl rfl rfl rfl
  | or a b => exact answers_aluBinary rfl rfl rfl rfl
  | xor a b => exact answers_aluBinary rfl rfl rfl rfl
  | shl a => exact answers_aluUnary rfl rfl rfl rfl
  | shr a => exact answers_aluUnary rfl rfl rfl rfl
  | push a =>
    exact answers_of_operand rfl rfl fun A hA => ⟨_, hA ▸ execPush_regByte A, .push (hA ▸ rfl)⟩
  | pop a =>
    exact answers_of_operand rfl rfl fun A hA => ⟨_, hA ▸ execPop_regByte A, .pop (hA ▸ rfl)⟩
  | prn a =>
    exact answers_of_operand rfl rfl fun A hA => ⟨_, hA ▸ execPrn_regByte A, .prn (hA ▸ rfl)⟩
  | call a =>
    exact answers_of_operand rfl rfl fun A hA => ⟨_, hA ▸ execCall_regByte A, .call (hA ▸ rfl)⟩
  | ret => exact answers_of_no_operand rfl rfl (.ret rfl)
  | ldi a imm =>
    exact answers_of_operand rfl rfl fun A hA => ⟨_, hA ▸ execLdi_regByte A imm, .ldi (hA ▸ rfl)⟩
  | halt => exact answers_of_no_operand rfl rfl (.halt rfl)

theorem exec_cases (h : exec i s = .next t) : ExecCase i s t := by
  obtain ⟨u, hu, hc⟩ := exec_answers i s
  obtain rfl : u = t := by injection hu.symm.trans h
  exact hc

/-! ### What every completing instruction keeps -/

/-- Only HALT touches the status registers (10_state.md R21, R23). -/
theorem Completes.sameStatus_or_halt (h : Completes i s t) :
    SameStatus s t ∨ i = .halt ∧ t = s.stop := by
  cases h with
  | halt hi => exact .inr ⟨hi, rfl⟩
  | _ => exact .inl ⟨rfl, rfl, rfl⟩

/-- PUSH and CALL store one byte; nothing else changes memory (20_memory.md R36). -/
theorem Completes.mem_eq_or_store (h : Completes i s t) :
    t.mem = s.mem ∨ ∃ v, t.mem = Memory.store s.mem s.pushAddr.toNat v := by
  cases h with
  | push hi => exact .inr ⟨_, rfl⟩
  | call hi => exact .inr ⟨_, rfl⟩
  | _ => exact .inl rfl

theorem Completes.mem_wf (h : Completes i s t) (hs : Memory.wf s.mem) : Memory.wf t.mem := by
  rcases h.mem_eq_or_store with he | ⟨v, he⟩
  · exact he ▸ hs
  · exact he ▸ State.memWrite_wf s.pushAddr v hs

/-- The pc after an instruction that passed its checks (10_state.md R18). -/
theorem Completes.pc_cases (h : Completes i s t) :
    PcMoves i.length s t ∧ (∀ a, i ≠ .call a) ∧ i ≠ .ret ∧ i ≠ .halt ∨
    (∃ A, i = .call (regByte A) ∧ t.pc = (s.setSp s.pushAddr).readReg A) ∨
    i = .ret ∧ t.pc = s.memRead s.sp ∨ i = .halt ∧ t.pc = s.pc := by
  cases h with
  | alu v hi hr =>
    refine .inl ⟨s.pcPlus_toNat _, ?_, ?_, ?_⟩
    · rintro a rfl; cases hi
    · rintro rfl; cases hi
    · rintro rfl; cases hi
  | cmp hi => subst hi; exact .inl ⟨s.pcPlus_toNat 3, nofun, nofun, nofun⟩
  | push hi => subst hi; exact .inl ⟨s.pcPlus_toNat 2, nofun, nofun, nofun⟩
  | pop hi => subst hi; exact .inl ⟨s.pcPlus_toNat 2, nofun, nofun, nofun⟩
  | prn hi => subst hi; exact .inl ⟨s.pcPlus_toNat 2, nofun, nofun, nofun⟩
  | ldi hi => subst hi; exact .inl ⟨s.pcPlus_toNat 3, nofun, nofun, nofun⟩
  | call hi => exact .inr (.inl ⟨_, hi, rfl⟩)
  | ret hi => exact .inr (.inr (.inl ⟨hi, rfl⟩))
  | halt hi => exact .inr (.inr (.inr ⟨hi, rfl⟩))

/-! ### What a step can do -/

theorem runLatch_of_ok {l : Latch} (h : decode l.opcode l.opA l.opB = .ok i) :
    runLatch l s = exec i s := by simp [runLatch, h]

theorem runLatch_of_error {l : Latch} {e : DecodeError}
    (h : decode l.opcode l.opA l.opB = .error e) :
    runLatch l s = .next (s.faulted .illegalInstruction l.opcode) := by
  simp [runLatch, h, takeFault]

theorem firstFault_of_ok {l : Latch} (h : decode l.opcode l.opA l.opB = .ok i) :
    firstFault l s = instrFault i s := by simp [firstFault, h]

theorem firstFault_of_error {l : Latch} {e : DecodeError}
    (h : decode l.opcode l.opA l.opB = .error e) :
    firstFault l s = some (.illegalInstruction, l.opcode) := by simp [firstFault, h]

/-- The next states of a step: a stopped CORE stays (70_reset_and_hazards.md R114), a RUNNING one takes
the first failed check, or completes the instruction it fetched (R116). -/
inductive StepCase (s : State) : State → Prop
  | stopped (hs : ¬ s.Runs) : StepCase s s
  | fault {c : FaultCause} {v : Byte} (hs : s.Runs) (hf : firstFault (fetch s) s = some (c, v))
      (hc : c ≠ .none) : StepCase s (s.faulted c v)
  | done {i : Instr} {t : State} (hs : s.Runs)
      (hd : decode (fetch s).opcode (fetch s).opA (fetch s).opB = .ok i)
      (hf : firstFault (fetch s) s = none) (ht : Completes i s t) : StepCase s t

theorem step_cases (h : step s = .next t) : StepCase s t := by
  by_cases hs : s.Runs
  · rw [step_of_runs hs] at h
    cases hd : decode (fetch s).opcode (fetch s).opA (fetch s).opB with
    | error e =>
      rw [runLatch_of_error hd] at h
      injection h with h
      exact h ▸ .fault hs (firstFault_of_error hd) (by decide)
    | ok i =>
      rw [runLatch_of_ok hd] at h
      cases exec_cases h with
      | fault hf hc => exact .fault hs ((firstFault_of_ok hd).trans hf) hc
      | done hf ht => exact .done hs hd ((firstFault_of_ok hd).trans hf) ht
  · obtain rfl : s = t := by injection (stepUnder_of_stopped hs _).symm.trans h
    exact .stopped hs

/-! ### The invariant (10_state.md R24; 60_exceptions.md R102, R103) -/

theorem State.honestStatus_of_runs (h : s.Runs) : s.HonestStatus ↔ s.faultInfo = 0 := by
  simp [State.HonestStatus, State.control_of_runs h, h.2]

theorem SameStatus.runs (h : SameStatus s t) (hs : s.Runs) : t.Runs :=
  ⟨h.running.trans hs.1, h.faultCause.trans hs.2⟩

/-- A taken check is still the first failed one: neither the fetch nor the checks read what a fault
records. -/
theorem State.faulted_honestStatus {c : FaultCause} {v : Byte} (hs : s.Runs)
    (hf : firstFault (fetch s) s = some (c, v)) (hc : c ≠ .none) :
    (s.faulted c v).HonestStatus := by
  have hcontrol : (s.faulted c v).control = .faulted := by simp [State.control, hs.1, hc]
  rw [State.HonestStatus, hcontrol]
  exact hf

theorem State.stop_honestStatus (hs : s.Runs) (hi : s.faultInfo = 0)
    (hd : decode (fetch s).opcode (fetch s).opA (fetch s).opB = .ok .halt) :
    s.stop.HonestStatus := ⟨hs.2, hi, hd⟩

/-- Settles O41, by the cases of a step: a stopped CORE keeps its state, a fault records the check that
failed, HALT leaves pc at itself, and everything else leaves the CORE RUNNING with its memory canonical. -/
theorem stepKeepsInvariant : Obligations.StepKeepsInvariant := by
  intro s t ⟨hwf, hstatus⟩ h
  cases step_cases h with
  | stopped _ => exact ⟨hwf, hstatus⟩
  | fault hs hf hc => exact ⟨hwf, State.faulted_honestStatus hs hf hc⟩
  | done hs hd _ ht =>
    have hinfo := (State.honestStatus_of_runs hs).1 hstatus
    refine ⟨ht.mem_wf hwf, ?_⟩
    rcases ht.sameStatus_or_halt with hsame | ⟨rfl, rfl⟩
    · exact (State.honestStatus_of_runs (hsame.runs hs)).2 (hsame.faultInfo.trans hinfo)
    · exact State.stop_honestStatus hs hinfo hd

/-- Settles O32, from the pc of a completing instruction; a fault leaves pc. -/
theorem nextPc : Obligations.NextPc := by
  intro i s
  obtain ⟨t, h, hcase⟩ := exec_answers i s
  refine ⟨t, h, ?_⟩
  cases hcase with
  | fault hf hc => exact ⟨fun _ => rfl, fun hn => by simp [hn] at hf⟩
  | done hf ht =>
    refine ⟨fun hn => absurd hf hn, fun _ => ?_⟩
    rcases ht.pc_cases with ⟨hpc, hcall, hret, hhalt⟩ | ⟨A, rfl, hpc⟩ | ⟨rfl, hpc⟩ | ⟨rfl, hpc⟩
    · exact ⟨fun _ _ _ => hpc, fun A e => absurd e (hcall _), fun e => absurd e hret,
        fun e => absurd e hhalt⟩
    · refine ⟨fun hcall => absurd rfl (hcall _), fun B e => ?_, nofun, nofun⟩
      rw [← regByte_injective (Instr.call.inj e)]
      exact hpc
    · exact ⟨fun _ hret => absurd rfl hret, nofun, fun _ => hpc, nofun⟩
    · exact ⟨fun _ _ hhalt => absurd rfl hhalt, nofun, nofun, fun _ => hpc⟩

/-- Settles O33: of the cases of a step only a completing HALT touches `running`. -/
theorem onlyHaltClearsRunning : Obligations.OnlyHaltClearsRunning := by
  refine ⟨fun _ _ => rfl, fun s t h hne => ?_⟩
  cases step_cases h with
  | stopped _ => exact absurd rfl hne
  | fault _ _ _ => exact absurd rfl hne
  | done hs hd _ ht =>
    rcases ht.sameStatus_or_halt with hsame | ⟨rfl, rfl⟩
    · exact absurd hsame.running hne
    · exact ⟨hs.1, rfl, hd⟩

end Sys2Proof.Machine
end

section
/-!
SUPPORT. The output sequence is write-only (10_state.md R28): every operation commutes with putting
bytes in front of it.
-/
namespace Sys2Proof.Machine

/-- The state with other bytes in front of its output. -/
def State.putFront (front : List Byte) (s : State) : State :=
  { s with output := front ++ s.output }

/-- A result with its next state changed by `g`. -/
def mapNext (g : State → State) : Result → Result
  | .next t => .next (g t)
  | .fault r => .fault r
  | .refused r => .refused r

variable (front : List Byte) (s : State)

theorem State.readReg_putFront (r : RegIdx) : (s.putFront front).readReg r = s.readReg r := rfl

/-- The one operation that writes the output puts its byte at the other end. -/
theorem State.emit_putFront (v : Byte) :
    (s.putFront front).emit v = (s.emit v).putFront front := by
  simp [State.emit, State.putFront]

/-- The operand check does not read the output. -/
theorem withReg_putFront (b : Byte) {k k' : RegIdx → Result}
    (hk : ∀ r, k' r = mapNext (State.putFront front) (k r)) :
    withReg b (s.putFront front) k' = mapNext (State.putFront front) (withReg b s k) := by
  rcases regByte_or_out b with ⟨r, rfl⟩ | hb
  · simpa using hk r
  · simp only [withReg_out _ hb]
    rfl

theorem aluBinary_putFront (f : Byte → Byte → Byte) (a b : Byte) :
    aluBinary f a b (s.putFront front) = mapNext (State.putFront front) (aluBinary f a b s) :=
  withReg_putFront front s a fun _ => withReg_putFront front s b fun _ => rfl

theorem aluUnary_putFront (f : Byte → Byte) (a : Byte) :
    aluUnary f a (s.putFront front) = mapNext (State.putFront front) (aluUnary f a s) :=
  withReg_putFront front s a fun _ => rfl

theorem aluDivide_putFront (f : Byte → Byte → Byte) (a b : Byte) :
    aluDivide f a b (s.putFront front) = mapNext (State.putFront front) (aluDivide f a b s) := by
  refine withReg_putFront front s a fun ra => withReg_putFront front s b fun rb => ?_
  rw [State.readReg_putFront, apply_ite (mapNext (State.putFront front))]
  rfl

/-- No instruction reads the output. -/
theorem exec_putFront (i : Instr) :
    exec i (s.putFront front) = mapNext (State.putFront front) (exec i s) := by
  cases i with
  | add a b => exact aluBinary_putFront front s _ a b
  | sub a b => exact aluBinary_putFront front s _ a b
  | mul a b => exact aluBinary_putFront front s _ a b
  | div a b => exact aluDivide_putFront front s _ a b
  | mod a b => exact aluDivide_putFront front s _ a b
  | inc a => exact aluUnary_putFront front s (fun x => addByte x 1) a
  | dec a => exact aluUnary_putFront front s (fun x => subByte x 1) a
  | cmp a b => rfl
  | and a b => exact aluBinary_putFront front s _ a b
  | not a => exact aluUnary_putFront front s _ a
  | or a b => exact aluBinary_putFront front s _ a b
  | xor a b => exact aluBinary_putFront front s _ a b
  | shl a => exact aluUnary_putFront front s _ a
  | shr a => exact aluUnary_putFront front s _ a
  | push a => exact withReg_putFront front s a fun _ => rfl
  | pop a => exact withReg_putFront front s a fun _ => rfl
  | prn a =>
    refine withReg_putFront front s a fun r => congrArg Host.Outcome.next ?_
    exact congrArg (State.advance · 2) (State.emit_putFront front s (s.readReg r))
  | call a => exact withReg_putFront front s a fun _ => rfl
  | ret => rfl
  | ldi a imm => exact withReg_putFront front s a fun _ => rfl
  | halt => rfl

theorem runLatch_putFront (l : Latch) :
    runLatch l (s.putFront front) = mapNext (State.putFront front) (runLatch l s) := by
  cases hd : decode l.opcode l.opA l.opB with
  | error e => rw [runLatch_of_error hd, runLatch_of_error hd]; rfl
  | ok i => rw [runLatch_of_ok hd, runLatch_of_ok hd, exec_putFront]

/-- Neither the control state nor the fetch depends on the output. -/
theorem step_putFront : step (s.putFront front) = mapNext (State.putFront front) (step s) := by
  by_cases hs : s.Runs
  · have hs' : (s.putFront front).Runs := hs
    rw [step_of_runs hs, step_of_runs hs']
    exact runLatch_putFront front s (fetch s)
  · have hs' : ¬ (s.putFront front).Runs := hs
    rw [step, step, stepUnder_of_stopped hs, stepUnder_of_stopped hs']
    rfl

/-- Settles O49: the step commutes with putting bytes in front of the output. -/
theorem outputIsNotReadable : Obligations.OutputIsNotReadable := fun s _ front h =>
  (step_putFront front s).trans (congrArg (mapNext (State.putFront front)) h)

end Sys2Proof.Machine
end

section
/-!
SUPPORT. Memory as a step leaves it (20_memory.md): one cell per write, the transactions of a step one by
one and replayed, the store of a PUSH or CALL as the next fetch sees it, and the loader's image. The
statements of 20_memory.md are settled here.
-/
namespace Sys2Proof.Machine

variable {i : Instr} {s t : State}

/-! ### One write (20_memory.md R34) -/

/-- A read depends on the memory alone. -/
theorem State.memRead_of_mem_eq (h : t.mem = s.mem) (x : Addr) : t.memRead x = s.memRead x :=
  congrArg (Memory.byteAt · x.toNat) h

/-- Reading the byte at `x` after a write at `a`. -/
theorem State.memRead_memWrite (s : State) (a x : Addr) (v : Byte) :
    (s.memWrite a v).memRead x = if x = a then v else s.memRead x := by
  split
  · next h => rw [h, State.memRead_memWrite_self]
  · next h => exact State.memRead_memWrite_other s v h

/-- Settles O44: the memory's two read laws; no register update is involved. -/
theorem memWriteSetsOneCell : Obligations.MemWriteSetsOneCell := fun s a v =>
  ⟨s.memRead_memWrite_self a v, fun _ hx => s.memRead_memWrite_other v hx, fun _ => rfl,
    ⟨rfl, rfl, rfl⟩, rfl, rfl⟩

/-! ### The transactions of a step (20_memory.md R36, R37) -/

theorem State.transactions_of_runs (hs : s.Runs) :
    s.transactions = fetchTxns s ++ latchTxns (fetch s) s := by
  simp [State.transactions, State.control_of_runs hs]

theorem State.transactions_of_stopped (hs : ¬ s.Runs) : s.transactions = [] := by
  unfold State.transactions
  cases hc : s.control with
  | running => exact absurd (State.runs_of_control hc) hs
  | halted => rfl
  | faulted => rfl

theorem latchTxns_of_fault {l : Latch} (hf : firstFault l s ≠ none) : latchTxns l s = [] := by
  cases hd : decode l.opcode l.opA l.opB with
  | error e => simp [latchTxns, hd]
  | ok i =>
    rw [firstFault_of_ok hd] at hf
    simp [latchTxns, hd, Option.isSome_iff_ne_none.2 hf]

theorem latchTxns_of_ok {l : Latch} (hd : decode l.opcode l.opA l.opB = .ok i)
    (hf : instrFault i s = none) : latchTxns l s = ownTxns i s := by
  simp [latchTxns, hd, hf]

/-- A failed check leaves the fetch alone on the memory port. -/
theorem State.transactions_of_fault (hs : s.Runs) (hf : firstFault (fetch s) s ≠ none) :
    s.transactions = fetchTxns s := by
  rw [State.transactions_of_runs hs, latchTxns_of_fault hf, List.append_nil]

theorem State.transactions_of_ok (hs : s.Runs)
    (hd : decode (fetch s).opcode (fetch s).opA (fetch s).opB = .ok i)
    (hf : instrFault i s = none) : s.transactions = fetchTxns s ++ ownTxns i s := by
  rw [State.transactions_of_runs hs, latchTxns_of_ok hd hf]

theorem ownTxns_push (A : RegIdx) (s : State) : ownTxns (.push (regByte A)) s =
    [.write s.pushAddr ((s.setSp s.pushAddr).readReg A)] := by
  simp [ownTxns]

/-- The four stack instructions alone have a transaction of their own. -/
theorem ownTxns_eq_nil (hpush : ∀ a, i ≠ .push a) (hpop : ∀ a, i ≠ .pop a)
    (hcall : ∀ a, i ≠ .call a) (hret : i ≠ .ret) : ownTxns i s = [] := by
  cases i with
  | push a => exact absurd rfl (hpush a)
  | pop a => exact absurd rfl (hpop a)
  | call a => exact absurd rfl (hcall a)
  | ret => exact absurd rfl hret
  | _ => rfl

theorem ownTxns_of_isAlu (hi : isAlu i = true) : ownTxns i s = [] := by
  refine ownTxns_eq_nil ?_ ?_ ?_ ?_
  · rintro a rfl; cases hi
  · rintro a rfl; cases hi
  · rintro a rfl; cases hi
  · rintro rfl; cases hi

/-- Settles O54: after the fetch reads come the instruction's own transactions, by its constructor. -/
theorem transactionsOfEachInstruction : Obligations.TransactionsOfEachInstruction := by
  intro s hs
  refine ⟨State.transactions_of_fault hs, fun i hd hf => ?_⟩
  have htxns := State.transactions_of_ok hs hd hf
  refine ⟨?push, ?pop, ?call, ?ret, ?rest⟩
  case push =>
    rintro A rfl
    rw [htxns, ownTxns_push, State.readReg_setSp]
    rfl
  case pop => rintro A rfl; exact htxns
  case call => rintro A rfl; exact htxns
  case ret => rintro rfl; exact htxns
  case rest =>
    intro hpush hpop hcall hret
    rw [htxns, ownTxns_eq_nil hpush hpop hcall hret]
    rfl

/-! ### The transactions replayed (20_memory.md R33 to R36) -/

/-- The one access of its own that a completing instruction makes, with what it does to memory: none, a
read at SP, or, for PUSH and CALL, a store at the decremented SP. -/
theorem Completes.access_cases (h : Completes i s t) :
    (ownTxns i s = [] ∧ t.mem = s.mem) ∨ (ownTxns i s = [readTxn s s.sp] ∧ t.mem = s.mem) ∨
    ∃ v, ownTxns i s = [.write s.pushAddr v] ∧ t.mem = (s.memWrite s.pushAddr v).mem ∧
      (i.mnemonic = .push ∨ i.mnemonic = .call) := by
  cases h with
  | alu v hi hr => exact .inl ⟨ownTxns_of_isAlu hi, rfl⟩
  | cmp hi => subst hi; exact .inl ⟨rfl, rfl⟩
  | prn hi => subst hi; exact .inl ⟨rfl, rfl⟩
  | ldi hi => subst hi; exact .inl ⟨rfl, rfl⟩
  | halt hi => subst hi; exact .inl ⟨rfl, rfl⟩
  | pop hi => subst hi; exact .inr (.inl ⟨rfl, rfl⟩)
  | ret hi => subst hi; exact .inr (.inl ⟨rfl, rfl⟩)
  | push hi => subst hi; exact .inr (.inr ⟨_, ownTxns_push _ s, rfl, .inl rfl⟩)
  | call hi => subst hi; exact .inr (.inr ⟨_, rfl, rfl, .inr rfl⟩)

/-- A `MemRead` of the state replays on the state's memory. -/
@[simp] theorem replay_readTxn (s : State) (a : Addr) (ts : List Txn) :
    replay s.mem (readTxn s a :: ts) = replay s.mem ts :=
  if_pos rfl

@[simp] theorem replay_fetchTxns (s : State) (ts : List Txn) :
    replay s.mem (fetchTxns s ++ ts) = replay s.mem ts := by
  simp [fetchTxns]

theorem Completes.replay_ownTxns (h : Completes i s t) :
    replay s.mem (ownTxns i s) = some t.mem := by
  rcases h.access_cases with ⟨hown, hmem⟩ | ⟨hown, hmem⟩ | ⟨v, hown, hmem, -⟩
  · rw [hown, hmem, replay]
  · rw [hown, hmem, replay_readTxn, replay]
  · rw [hown, hmem]; rfl

theorem Completes.ownTxns_length_le (h : Completes i s t) : (ownTxns i s).length ≤ 1 := by
  rcases h.access_cases with ⟨hown, -⟩ | ⟨hown, -⟩ | ⟨v, hown, -⟩ <;> simp [hown]

/-- Settles O45, by the cases of a step: a stopped CORE has no transactions, a fault has the fetch reads
only, and a completing instruction adds its one access. -/
theorem transactionsExplainMemory : Obligations.TransactionsExplainMemory := by
  intro s t h
  cases step_cases h with
  | stopped hs =>
    rw [State.transactions_of_stopped hs]
    exact ⟨rfl, fun hr => absurd hr hs⟩
  | fault hs hf _ =>
    have htxns : s.transactions = fetchTxns s ++ [] :=
      State.transactions_of_fault hs (by simp [hf])
    rw [htxns, replay_fetchTxns]
    exact ⟨rfl, fun _ => ⟨[], rfl, Nat.zero_le 1, fun _ => rfl⟩⟩
  | done hs hd hf ht =>
    rw [State.transactions_of_ok hs hd ((firstFault_of_ok hd).symm.trans hf), replay_fetchTxns]
    exact ⟨ht.replay_ownTxns, fun _ =>
      ⟨_, rfl, ht.ownTxns_length_le, fun hne => absurd hf hne⟩⟩

/-- The opcode byte is the one the map gives the decoded instruction's mnemonic. -/
theorem opcode_of_decode {opcode opA opB : Byte} (h : decode opcode opA opB = .ok i) :
    opcode = Config.opcodeMap i.mnemonic := by
  obtain ⟨m, hm, rfl⟩ := decode_ok h
  rw [Mnemonic.mnemonic_build, lookupOpcode_sound hm]

/-- Settles O46: of the cases of a step only a completing PUSH or CALL stores, at the decremented SP. -/
theorem onlyPushAndCallStore : Obligations.OnlyPushAndCallStore := by
  intro s t x h hne
  cases step_cases h with
  | stopped _ => exact absurd rfl hne
  | fault _ _ _ => exact absurd rfl hne
  | done hs hd _ ht =>
    rcases ht.access_cases with ⟨-, hmem⟩ | ⟨-, hmem⟩ | ⟨v, -, hmem, hi⟩
    · exact absurd (State.memRead_of_mem_eq hmem x) hne
    · exact absurd (State.memRead_of_mem_eq hmem x) hne
    · have hop : s.memRead s.pc = Config.opcodeMap _ := opcode_of_decode hd
      refine ⟨hs, ?_, ?_⟩
      · rcases hi with hi | hi <;> rw [hop, hi] <;> decide
      · by_contra hx
        exact hne ((State.memRead_of_mem_eq hmem x).trans (s.memRead_memWrite_other v hx))

/-! ### The next fetch after a store (20_memory.md R46; 70_reset_and_hazards.md R118) -/

theorem step_of_decode (hs : s.Runs)
    (hd : decode (fetch s).opcode (fetch s).opA (fetch s).opB = .ok i) : step s = exec i s :=
  (step_of_runs hs).trans (runLatch_of_ok hd)

theorem decode_fetch_push {a : Byte} (hop : s.memRead s.pc = 0x45)
    (ha : s.memRead (s.pcPlus 1) = a) :
    decode (fetch s).opcode (fetch s).opA (fetch s).opB = .ok (.push a) := by
  simp only [fetch, hop, ha]
  rfl

theorem decode_fetch_call {a : Byte} (hop : s.memRead s.pc = 0x50)
    (ha : s.memRead (s.pcPlus 1) = a) :
    decode (fetch s).opcode (fetch s).opA (fetch s).opB = .ok (.call a) := by
  simp only [fetch, hop, ha]
  rfl

theorem State.pcPlus_advance (s : State) (n k : Nat) :
    (s.advance n).pcPlus k = s.pcPlus (n + k) := by
  simp only [State.pcPlus, State.advance_pc, BitVec.ofNat_add, BitVec.add_assoc]

/-- Settles O47: PUSH is followed by the fetch two bytes on, which reads memory after the one store. -/
theorem nextFetchSeesPush : Obligations.NextFetchSeesPush := by
  intro A s hs hop ha
  refine ⟨_, (step_of_decode hs (decode_fetch_push hop ha)).trans (execPush_regByte A), ?_⟩
  simp only [fetch, State.pcPlus_advance, State.advance_pc, State.memRead_advance,
    State.memRead_memWrite, State.memRead_setSp]
  rfl

/-- Settles O55: CALL is followed by the fetch at its target, which reads memory after the one store. -/
theorem nextFetchSeesCall : Obligations.NextFetchSeesCall := by
  intro A s hs hop ha
  refine ⟨_, (step_of_decode hs (decode_fetch_call hop ha)).trans (execCall_regByte A),
    s.readReg_setSp A s.pushAddr, ?_⟩
  simp only [fetch, State.pcPlus, State.setPc_pc, State.memRead_setPc, State.memRead_memWrite,
    State.memRead_setSp, State.readReg_setSp]
  rfl

/-! ### The loader's image (20_memory.md R32; 70_reset_and_hazards.md R115) -/

/-- The loader leaves every cell outside the image as it was. -/
theorem Memory.byteAt_load_outside (m : Memory) {k x : Nat} (image : List Byte)
    (h : x < k ∨ k + image.length ≤ x) :
    Memory.byteAt (Memory.load m k image) x = Memory.byteAt m x := by
  induction image generalizing m k with
  | nil => rfl
  | cons v image ih =>
    simp only [List.length_cons] at h
    rw [Memory.load, ih _ (by omega), Memory.byteAt_store_other m v (by omega)]

/-- Byte `j` of the image is `j` cells past the first address. -/
theorem Memory.byteAt_load_image (m : Memory) (k : Nat) (image : List Byte) {j : Nat}
    (h : j < image.length) : Memory.byteAt (Memory.load m k image) (k + j) = image[j] := by
  induction image generalizing m k j with
  | nil => cases h
  | cons v image ih =>
    cases j with
    | zero =>
      exact (Memory.byteAt_load_outside _ image (.inl (Nat.lt_succ_self k))).trans
        (Memory.byteAt_store_self m k v)
    | succ j =>
      have hk : k + (j + 1) = k + 1 + j := by omega
      rw [hk]
      exact ih (Memory.store m k v) (k + 1) (Nat.lt_of_succ_lt_succ h)

/-- Settles O51: the loaded memory is read by the two laws of the loader; the rest is the reset state. -/
theorem bootLoadsImage : Obligations.BootLoadsImage := by
  refine ⟨fun draw image hlen => ⟨_, if_pos hlen, ?image, ?rest, ?wf, rfl, rfl, rfl, rfl⟩,
    fun draw image hlen => if_neg (Nat.not_le.2 hlen)⟩
  case image =>
    intro k hk
    have haddr : (BitVec.ofNat 8 k).toNat = 0 + k := by
      rw [BitVec.toNat_ofNat, Nat.mod_eq_of_lt (by omega), Nat.zero_add]
    rw [State.memRead, haddr]
    exact Memory.byteAt_load_image [] 0 image hk
  case rest =>
    intro x hx
    exact Memory.byteAt_load_outside [] image (.inr (by omega))
  case wf => exact Memory.load_wf Memory.nil_wf (by simpa [Config.memSize] using hlen)

end Sys2Proof.Machine
end

section
/-!
SUPPORT. Encoding (30_encoding.md): the dispatch table as a one-to-one correspondence of mnemonics and
opcode bytes, an instruction as its mnemonic and its operand bytes, and the decoder and the encoder as
inverses of each other. The statements of 30_encoding.md are settled here.
-/
namespace Sys2Proof

variable {map : OpcodeMap} {i : Instr} {m : Mnemonic} {a b : Byte} {bs rest : List Byte}

/-! ### The dispatch table (30_encoding.md R54, R55) -/

/-- Under a one-to-one map the lookup of a mnemonic's byte gives the mnemonic back. -/
theorem lookupOpcode_of_injective (hmap : Function.Injective map) (m : Mnemonic) :
    lookupOpcode map (map m) = some m := by
  cases hl : lookupOpcode map (map m) with
  | none => exact absurd rfl (lookupOpcode_none hl m)
  | some m' => rw [hmap (lookupOpcode_sound hl)]

/-- Each row of this hardware's table is found by its own byte. -/
theorem lookupOpcode_opcodeMap (m : Mnemonic) :
    lookupOpcode Config.opcodeMap (Config.opcodeMap m) = some m := by
  cases m <;> rfl

theorem opcodeMap_injective : Function.Injective Config.opcodeMap := fun m m' h =>
  Option.some.inj <| calc
    some m = lookupOpcode Config.opcodeMap (Config.opcodeMap m) := (lookupOpcode_opcodeMap m).symm
    _ = lookupOpcode Config.opcodeMap (Config.opcodeMap m') := by rw [h]
    _ = some m' := lookupOpcode_opcodeMap m'

theorem decode_opcodeMap (m : Mnemonic) (a b : Byte) :
    decode (Config.opcodeMap m) a b = .ok (m.build a b) := by
  rw [decode_eq, lookupOpcode_opcodeMap]

/-! ### An instruction as its mnemonic and its operand bytes (30_encoding.md R53, R58) -/

/-- The operand bytes are as many of the two fetched ones as the format has room for. -/
theorem operandBytes_build (m : Mnemonic) (a b : Byte) :
    (m.build a b).operandBytes = [a, b].take (m.format.length - 1) := by
  cases m <;> rfl

/-- The bytes that the decoder takes as operands. -/
theorem eq_append_of_takeOperands {f : Format} (h : takeOperands f bs = some (a, b, rest)) :
    bs = [a, b].take (f.length - 1) ++ rest := by
  unfold takeOperands at h
  split at h <;> cases h <;> rfl

/-- An instruction's own operand bytes, read back by its format. -/
theorem takeOperands_operandBytes (i : Instr) (rest : List Byte) :
    ∃ a b, takeOperands i.mnemonic.format (i.operandBytes ++ rest) = some (a, b, rest) ∧
      i.mnemonic.build a b = i := by
  cases i <;> exact ⟨_, _, rfl, rfl⟩

/-! ### Decoding and encoding as inverses (30_encoding.md R53, R54, R57) -/

theorem decodeBytesWith_encodeWith (hmap : Function.Injective map) (i : Instr) (rest : List Byte) :
    decodeBytesWith map (encodeWith map i ++ rest) = .ok (i, rest) := by
  obtain ⟨a, b, htake, hbuild⟩ := takeOperands_operandBytes i rest
  simp [encodeWith, decodeBytesWith, lookupOpcode_of_injective hmap, htake, hbuild]

/-- Everything that decoding a list can answer: a mnemonic whose byte stands first, and the operands
after it. -/
theorem decodeBytesWith_ok (h : decodeBytesWith map bs = .ok (i, rest)) :
    ∃ m a b tail, bs = map m :: tail ∧ takeOperands m.format tail = some (a, b, rest) ∧
      i = m.build a b := by
  unfold decodeBytesWith at h
  split at h
  · cases h
  · next op tail =>
    split at h
    · cases h
    · next m hl =>
      split at h
      · cases h
      · next a b bs htake =>
        cases h
        exact ⟨m, a, b, tail, by rw [lookupOpcode_sound hl], htake, rfl⟩

/-- This direction asks nothing of the map. -/
theorem encodeWith_of_decodeBytesWith (h : decodeBytesWith map bs = .ok (i, rest)) :
    encodeWith map i ++ rest = bs := by
  obtain ⟨m, a, b, tail, rfl, htake, rfl⟩ := decodeBytesWith_ok h
  rw [encodeWith, Mnemonic.mnemonic_build, operandBytes_build, List.cons_append,
    ← eq_append_of_takeOperands htake]

theorem encode_injective : Function.Injective encode := fun i j h => by
  have hi := decodeBytesWith_encodeWith opcodeMap_injective i []
  have hj := decodeBytesWith_encodeWith opcodeMap_injective j []
  have hij : encodeWith Config.opcodeMap i = encodeWith Config.opcodeMap j := h
  rw [hij, hj] at hi
  cases hi
  rfl

theorem encode_length (i : Instr) : (encode i).length = i.length := by
  cases i <;> rfl

/-- Operand bytes outside the instruction's length make no difference to it. -/
theorem decode_congr {op a' b' : Byte} (hd : decode op a b = .ok i)
    (h : [a, b].take (i.length - 1) = [a', b'].take (i.length - 1)) : decode op a' b' = .ok i := by
  obtain ⟨m, hm, rfl⟩ := decode_ok hd
  rw [Instr.length, Mnemonic.mnemonic_build] at h
  have hbuild : m.build a' b' = m.build a b := encode_injective <| by
    simp only [encode, encodeWith, Mnemonic.mnemonic_build, operandBytes_build, h]
  rw [decode_eq, hm, ← hbuild]

end Sys2Proof

namespace Sys2Proof.Machine

variable {i : Instr} {s : State} {op : Byte} {n : Nat}

/-- Settles O2: the lookup gives the mnemonic back, and its format takes the operand bytes back. -/
theorem decodeUndoesEncode : Obligations.DecodeUndoesEncode :=
  ⟨fun _ hmap i rest => decodeBytesWith_encodeWith hmap i rest, opcodeMap_injective,
    fun i rest => decodeBytesWith_encodeWith opcodeMap_injective i rest⟩

/-- Settles O3, which holds under every opcode map. -/
theorem encodeUndoesDecode : Obligations.EncodeUndoesDecode := fun _ _ _ h =>
  encodeWith_of_decodeBytesWith h

/-! ### Legal and illegal opcode bytes (30_encoding.md R55, R59) -/

/-- The table of the statements is the map of the decoder. -/
theorem mem_legalOpcodes_iff : op ∈ legalOpcodes ↔ ∃ m, Config.opcodeMap m = op := by
  have htable : legalOpcodes = Mnemonic.all.map Config.opcodeMap := rfl
  simp [htable, Mnemonic.mem_all]

theorem decode_of_illegal (h : op ∉ legalOpcodes) (a b : Byte) :
    decode op a b = .error (.illegalOpcode op) := by
  rw [decode_eq]
  cases hl : lookupOpcode Config.opcodeMap op with
  | none => rfl
  | some m => exact absurd (mem_legalOpcodes_iff.2 ⟨m, lookupOpcode_sound hl⟩) h

/-- The legal ones among the 256 byte values are the table's rows, each once. -/
theorem legalValues_perm :
    ((List.range 256).filter fun n => decide (BitVec.ofNat 8 n ∈ legalOpcodes)).Perm
      (legalOpcodes.map BitVec.toNat) := by
  refine (List.perm_ext_iff_of_nodup (List.nodup_range.filter _) (by decide)).2 fun n => ?_
  simp only [List.mem_filter, List.mem_range, decide_eq_true_eq, List.mem_map]
  constructor
  · rintro ⟨hn, hop⟩
    exact ⟨_, hop, (BitVec.toNat_ofNat ..).trans (Nat.mod_eq_of_lt hn)⟩
  · rintro ⟨op, hop, rfl⟩
    exact ⟨op.isLt, by simpa using hop⟩

theorem illegalOpcodes_count :
    ((List.range 256).filter fun n => decide (BitVec.ofNat 8 n ∉ legalOpcodes)).length = 235 := by
  have hsplit := List.length_eq_length_filter_add (l := List.range 256)
    fun n => decide (BitVec.ofNat 8 n ∈ legalOpcodes)
  have hlegal := legalValues_perm.length_eq.trans (List.length_map _)
  have hrows : legalOpcodes.length = 21 := rfl
  rw [List.length_range] at hsplit
  simp only [decide_not]
  omega

/-- Settles O4: the decoder's lookup succeeds on the bytes of the table alone, and the step takes what
the decoder refuses as IllegalInstruction. -/
theorem illegalOpcodesFault : Obligations.IllegalOpcodesFault := by
  refine ⟨fun op a b h => decode_of_illegal h a b, ?legal, ?fault,
    illegalOpcodes_count, by decide, by decide⟩
  case legal =>
    intro op a b h
    obtain ⟨m, rfl⟩ := mem_legalOpcodes_iff.1 h
    exact ⟨_, decode_opcodeMap m a b⟩
  case fault =>
    intro s hs h
    exact (step_of_runs hs).trans (runLatch_of_error (decode_of_illegal h _ _))

/-- Settles O5: the operand bytes inside the length fix the instruction, and CMP's meaning takes
neither. -/
theorem unusedBytesIgnored : Obligations.UnusedBytesIgnored :=
  ⟨fun _ _ _ _ hd hlen _ _ => decode_congr hd (by simp [hlen]),
    fun _ _ _ _ hd hlen _ => decode_congr hd (by simp [hlen]),
    fun _ _ _ _ _ => rfl⟩

/-! ### Lengths (30_encoding.md R55, R61) -/

/-- The lengths of the statements are those of the decoder's formats. -/
theorem mem_opcodesOfLength_iff :
    op ∈ opcodesOfLength n ↔ ∃ m : Mnemonic, m.format.length = n ∧ Config.opcodeMap m = op := by
  have htable : opcodesOfLength n =
      (Mnemonic.all.filter fun m => m.format.length == n).map Config.opcodeMap :=
    match n with
    | 0 => rfl
    | 1 => rfl
    | 2 => rfl
    | 3 => rfl
    | _ + 4 => rfl
  simp [htable, Mnemonic.mem_all]

/-- Settles O6: the opcode byte fixes the mnemonic, and the mnemonic the length. -/
theorem lengthFromOpcodeAlone : Obligations.LengthFromOpcodeAlone := by
  refine ⟨?same, ?table, ?decodes, ?taken, ?fetched⟩
  case same =>
    intro op a b a' b' i i' hd hd'
    have hm : i.mnemonic = i'.mnemonic :=
      opcodeMap_injective ((opcode_of_decode hd).symm.trans (opcode_of_decode hd'))
    obtain ⟨hlow, hhigh⟩ := Laws.EncodedShape.length_bounds i.mnemonic
    refine ⟨by rw [Instr.length, Instr.length, hm], ?_⟩
    rw [Instr.length]
    omega
  case table =>
    intro op a b i hd
    exact mem_opcodesOfLength_iff.2 ⟨i.mnemonic, rfl, (opcode_of_decode hd).symm⟩
  case decodes =>
    intro n op hop a b
    obtain ⟨m, rfl, rfl⟩ := mem_opcodesOfLength_iff.1 hop
    have hlen : (m.build a b).length = m.format.length := by
      rw [Instr.length, Mnemonic.mnemonic_build]
    exact ⟨_, decode_opcodeMap m a b, hlen, (encode_length _).trans hlen⟩
  case taken =>
    intro bs i rest hd
    rw [← encodeUndoesDecode bs i rest hd, List.length_append, encode_length]
  case fetched =>
    intro s hs
    exact ⟨latchTxns (fetch s) s, (State.transactions_of_runs hs).symm⟩

/-! ### Ill-formed instructions (30_encoding.md R60; 60_exceptions.md R96, R97) -/

theorem wellFormed_iff : WellFormed i = true ↔ ∀ b ∈ regOperands i, b.toNat < 8 := by
  cases i <;> simp [WellFormed, regOperands, namesReg]

/-- Register operands stand before an immediate. -/
theorem regOperands_isPrefix (i : Instr) : regOperands i <+: i.operandBytes := by
  cases i <;> exact ⟨_, rfl⟩

theorem operandBytes_length_le (i : Instr) : i.operandBytes.length ≤ 2 := by
  have hlen : i.operandBytes.length + 1 = i.length := encode_length i
  obtain ⟨-, hhigh⟩ := Laws.EncodedShape.length_bounds i.mnemonic
  rw [Instr.length] at hlen
  omega

/-- The first bad register operand is operand A, or operand B after a good operand A. -/
theorem illFormed_cases (h : WellFormed i = false) :
    (∃ a rest, regOperands i = a :: rest ∧ 8 ≤ a.toNat) ∨
      ∃ A b, regOperands i = [regByte A, b] ∧ 8 ≤ b.toNat := by
  have hbad : ¬ ∀ b ∈ regOperands i, b.toNat < 8 := fun hgood => by
    simp [wellFormed_iff.2 hgood] at h
  have hlen := (regOperands_isPrefix i).length_le.trans (operandBytes_length_le i)
  generalize regOperands i = operands at hbad hlen ⊢
  match operands with
  | [] => simp at hbad
  | [a] => exact .inl ⟨a, [], rfl, by simpa using hbad⟩
  | [a, b] =>
    rcases regByte_or_out a with ⟨A, rfl⟩ | ha
    · exact .inr ⟨A, b, rfl, by simpa [regByte_lt A] using hbad⟩
    · exact .inl ⟨a, [b], rfl, ha⟩
  | _ :: _ :: _ :: _ => simp at hlen

/-- The check that an ill-formed instruction fails first, and where its bad operand byte stands. -/
theorem instrFault_of_illFormed (s : State) (h : WellFormed i = false) :
    ∃ b : Byte, instrFault i s = some (.illegalRegister, b) ∧ 8 ≤ b.toNat ∧
      ((∃ rest, i.operandBytes = b :: rest) ∨
        ∃ a : Byte, a.toNat < 8 ∧ i.operandBytes = [a, b]) := by
  have hoperands := regOperands_isPrefix i
  rcases illFormed_cases h with ⟨a, rest, hr, ha⟩ | ⟨A, b, hr, hb⟩
  · obtain ⟨more, hmore⟩ := hoperands
    rw [hr] at hmore
    exact ⟨a, instrFault_of_first_out hr ha, ha, .inl ⟨_, hmore.symm⟩⟩
  · rw [hr] at hoperands
    have hbytes := hoperands.eq_of_length_le (operandBytes_length_le i)
    exact ⟨b, instrFault_of_second_out hr hb, hb, .inr ⟨_, regByte_lt A, hbytes.symm⟩⟩

theorem instrFault_of_wellFormed (h : WellFormed i = true) : instrFault i s = zeroDivisor i s :=
  instrFault_of_registers fun b hb =>
    (regByte_or_out b).resolve_right (Nat.not_le.2 (wellFormed_iff.1 h b hb))

/-- The divisor's check fails with DivisionByZero only, on a register that holds 0. -/
theorem zeroDivisor_eq_some {c : FaultCause} {v : Byte} (h : zeroDivisor i s = some (c, v)) :
    ∃ B, s.readReg B = 0 ∧ c = .divisionByZero ∧ v = regByte B := by
  cases hd : divisorOperand i with
  | none => simp [zeroDivisor_of_no_divisor hd] at h
  | some b =>
    rcases regByte_or_out b with ⟨B, rfl⟩ | hb
    · rw [zeroDivisor_of_register hd] at h
      split at h
      · next h0 => cases h; exact ⟨B, h0, rfl, rfl⟩
      · cases h
    · simp [zeroDivisor, hd, regIndex?_eq_none hb] at h

theorem exec_of_instrFault {c : FaultCause} {v : Byte} (h : instrFault i s = some (c, v)) :
    exec i s = .next (s.faulted c v) := by
  obtain ⟨t, ht, hcase⟩ := exec_answers i s
  cases hcase with
  | fault hf _ => cases h.symm.trans hf; exact ht
  | done hf _ => cases h.symm.trans hf

/-- Settles O37: an ill-formed instruction takes its first bad operand's check; a well-formed one has
the divisor's check alone left. -/
theorem illFormedRaisesIllegalRegister : Obligations.IllFormedRaisesIllegalRegister := by
  intro i s
  refine ⟨fun hbad => ?_, fun hgood => ?_⟩
  · obtain ⟨b, hfault, hout, hposition⟩ := instrFault_of_illFormed s hbad
    exact ⟨b, hout, exec_of_instrFault hfault, hposition⟩
  · obtain ⟨t, hexec, hcase⟩ := exec_answers i s
    refine ⟨t, hexec, ?_⟩
    cases hcase with
    | fault hf _ =>
      obtain ⟨B, h0, rfl, rfl⟩ := zeroDivisor_eq_some ((instrFault_of_wellFormed hgood).symm.trans hf)
      exact .inr ⟨B, h0, rfl⟩
    | done _ ht =>
      rcases ht.sameStatus_or_halt with hsame | ⟨-, rfl⟩
      · exact .inl ⟨hsame.faultCause, hsame.faultInfo⟩
      · exact .inl ⟨rfl, rfl⟩

/-- Settles O1: six rows of the table, and a byte in no row. -/
theorem sampleWordsDecode : Obligations.SampleWordsDecode :=
  ⟨decode_opcodeMap .add 0 1, decode_opcodeMap .shl 3 0xFF, decode_opcodeMap .call 1 0,
    decode_opcodeMap .ldi 0 8, decode_opcodeMap .ret 0xFF 0xFF, decode_opcodeMap .halt 0 0,
    decode_of_illegal (by decide) 0 0⟩

end Sys2Proof.Machine
end

section
/-!
SUPPORT. The ALU (40_alu.md): the rule shared by the binary, the unary and the dividing instructions, said
once each for any byte operation (R66), the 14 instructions as its cases, and that an ALU instruction
depends on its operand registers alone (R82). The statements of 40_alu.md are settled here.
-/
namespace Sys2Proof.Machine

variable {i : Instr} {s s' t : State} {m : Mnemonic} {a b : Byte} {rs : List Byte}

/-! ### How an instruction decodes and encodes (30_encoding.md R53, R55) -/

theorem encode_build (m : Mnemonic) (a b : Byte) :
    encode (m.build a b) = Config.opcodeMap m :: [a, b].take (m.format.length - 1) := by
  rw [encode, encodeWith, Mnemonic.mnemonic_build, operandBytes_build]

theorem encodes3_of_build {mk : Byte → Byte → Instr} (hmk : ∀ a b, m.build a b = mk a b)
    (hlen : m.format.length = 3) : Encodes3 (Config.opcodeMap m) mk := by
  intro a b
  rw [← hmk a b, encode_build, hlen]
  exact ⟨decode_opcodeMap m a b, rfl⟩

theorem encodes2_of_build {mk : Byte → Instr} (hmk : ∀ a b, m.build a b = mk a)
    (hlen : m.format.length = 2) : Encodes2 (Config.opcodeMap m) mk := by
  intro a b
  rw [← hmk a b, encode_build, hlen]
  exact ⟨decode_opcodeMap m a b, rfl⟩

/-! ### The operand checks (60_exceptions.md R96, R101) -/

theorem checksA_of_regOperands {mk : Byte → Instr} (hr : ∀ a, regOperands (mk a) = [a]) :
    ChecksA mk := fun a _ ha =>
  exec_of_instrFault (instrFault_of_first_out (hr a) ha)

theorem checksAB_of_regOperands {mk : Byte → Byte → Instr}
    (hr : ∀ a b, regOperands (mk a b) = [a, b]) : ChecksAB mk :=
  ⟨fun b a _ ha => exec_of_instrFault (instrFault_of_first_out (hr a b) ha),
    fun A b _ hb => exec_of_instrFault (instrFault_of_second_out (hr (regByte A) b) hb)⟩

/-! ### The effect of an instruction that passed its checks (40_alu.md R66) -/

theorem pcMoves_of_pc_eq {n : Nat} (h : t.pc = s.pcPlus n) : PcMoves n s t := by
  rw [PcMoves, h, State.pcPlus_toNat]

theorem State.quiet_advance (s : State) (n : Nat) : Quiet s (s.advance n) :=
  ⟨⟨rfl, rfl, rfl⟩, fun _ => rfl, rfl⟩

theorem State.quiet_aluWrite (s : State) (A : RegIdx) (v : Byte) (len : Nat) :
    Quiet s (s.aluWrite A v len) :=
  ⟨⟨rfl, rfl, rfl⟩, fun _ => rfl, rfl⟩

theorem aluEffect_of_aluWrite {A : RegIdx} {v : Byte} {n len : Nat}
    (hexec : exec i s = .next (s.aluWrite A v len)) (hv : v.toNat = n) : AluEffect i s A n len :=
  ⟨_, hexec, by rw [State.readReg_aluWrite_self, hv], pcMoves_of_pc_eq rfl,
    fun _ hr => s.readReg_aluWrite_other v len hr, s.quiet_aluWrite A v len⟩

theorem aluUnary_regByte (g : Byte → Byte) (A : RegIdx) (s : State) :
    aluUnary g (regByte A) s = .next (s.aluWrite A (g (s.readReg A)) 2) := by
  simp [aluUnary]

theorem aluBinary_regByte (g : Byte → Byte → Byte) (A B : RegIdx) (s : State) :
    aluBinary g (regByte A) (regByte B) s =
      .next (s.aluWrite A (g (s.readReg A) (s.readReg B)) 3) := by
  simp [aluBinary]

theorem aluDivide_regByte (g : Byte → Byte → Byte) (A B : RegIdx) (s : State) :
    aluDivide g (regByte A) (regByte B) s =
      if s.readReg B = 0 then .next (s.faulted .divisionByZero (regByte B))
      else .next (s.aluWrite A (g (s.readReg A) (s.readReg B)) 3) := by
  simp [aluDivide, takeFault]

/-! ### The rules (40_alu.md R67 to R79) -/

/-- An instruction whose meaning is `aluUnary g` obeys the rule of `g` read as arithmetic. -/
theorem unaryRule_of_exec {mk : Byte → Instr} {g : Byte → Byte} {f : Nat → Nat}
    (hmk : ∀ a b, m.build a b = mk a) (hlen : m.format.length = 2)
    (hr : ∀ a, regOperands (mk a) = [a]) (hexec : ∀ a s, exec (mk a) s = aluUnary g a s)
    (hg : ∀ x, (g x).toNat = f x.toNat) : UnaryRule (Config.opcodeMap m) mk f := by
  refine ⟨encodes2_of_build hmk hlen, checksA_of_regOperands hr, fun A s => ?_⟩
  exact aluEffect_of_aluWrite ((hexec _ s).trans (aluUnary_regByte g A s)) (hg _)

/-- An instruction whose meaning is `aluBinary g` obeys the rule of `g` read as arithmetic. -/
theorem binaryRule_of_exec {mk : Byte → Byte → Instr} {g : Byte → Byte → Byte} {f : Nat → Nat → Nat}
    (hmk : ∀ a b, m.build a b = mk a b) (hlen : m.format.length = 3)
    (hr : ∀ a b, regOperands (mk a b) = [a, b])
    (hexec : ∀ a b s, exec (mk a b) s = aluBinary g a b s)
    (hg : ∀ x y, (g x y).toNat = f x.toNat y.toNat) : BinaryRule (Config.opcodeMap m) mk f := by
  refine ⟨encodes3_of_build hmk hlen, checksAB_of_regOperands hr, fun A B s => ?_⟩
  exact aluEffect_of_aluWrite ((hexec _ _ s).trans (aluBinary_regByte g A B s)) (hg _ _)

/-- An instruction whose meaning is `aluDivide g` obeys the rule of `g` read as arithmetic. -/
theorem divideRule_of_exec {mk : Byte → Byte → Instr} {g : Byte → Byte → Byte} {f : Nat → Nat → Nat}
    (hmk : ∀ a b, m.build a b = mk a b) (hlen : m.format.length = 3)
    (hr : ∀ a b, regOperands (mk a b) = [a, b])
    (hexec : ∀ a b s, exec (mk a b) s = aluDivide g a b s)
    (hg : ∀ x y, (g x y).toNat = f x.toNat y.toNat) : DivideRule (Config.opcodeMap m) mk f := by
  refine ⟨encodes3_of_build hmk hlen, checksAB_of_regOperands hr, fun A B s h0 => ?_,
    fun A B s h0 => aluEffect_of_aluWrite ?_ (hg _ _)⟩
  · rw [hexec, aluDivide_regByte, if_pos h0]
  · rw [hexec, aluDivide_regByte, if_neg h0]

/-- Settles O7: ADD is `aluBinary` of the sum mod 256 (R67). -/
theorem addResult : Obligations.AddResult :=
  binaryRule_of_exec (m := .add) (fun _ _ => rfl) rfl (fun _ _ => rfl) (fun _ _ _ => rfl)
    addByte_toNat

/-- Settles O8: SUB is `aluBinary` of the difference mod 256 (R68). -/
theorem subResult : Obligations.SubResult :=
  binaryRule_of_exec (m := .sub) (fun _ _ => rfl) rfl (fun _ _ => rfl) (fun _ _ _ => rfl)
    subByte_toNat

/-- Settles O9: MUL is `aluBinary` of the low byte of the product (R69). -/
theorem mulResult : Obligations.MulResult :=
  binaryRule_of_exec (m := .mul) (fun _ _ => rfl) rfl (fun _ _ => rfl) (fun _ _ _ => rfl)
    mulByte_toNat

/-- Settles O10: the zero divisor is tested by `aluDivide` after both operand checks. -/
theorem divResult : Obligations.DivResult :=
  divideRule_of_exec (m := .div) (fun _ _ => rfl) rfl (fun _ _ => rfl) (fun _ _ _ => rfl)
    divByte_toNat

/-- Settles O11, as O10 with the remainder. -/
theorem modResult : Obligations.ModResult :=
  divideRule_of_exec (m := .mod) (fun _ _ => rfl) rfl (fun _ _ => rfl) (fun _ _ _ => rfl)
    modByte_toNat

/-- Settles O12: INC is ADD of the constant 1. -/
theorem incResult : Obligations.IncResult :=
  unaryRule_of_exec (m := .inc) (fun _ _ => rfl) rfl (fun _ => rfl) (fun _ _ => rfl)
    fun x => addByte_toNat x 1

/-- Settles O13: DEC is SUB of the constant 1, and 256 - 1 is the rule's 255. -/
theorem decResult : Obligations.DecResult :=
  unaryRule_of_exec (m := .dec) (fun _ _ => rfl) rfl (fun _ => rfl) (fun _ _ => rfl)
    fun x => subByte_toNat x 1

/-- Settles O14: AND is `aluBinary` of the bitwise AND (R74). -/
theorem andResult : Obligations.AndResult :=
  binaryRule_of_exec (m := .and) (fun _ _ => rfl) rfl (fun _ _ => rfl) (fun _ _ _ => rfl)
    BitVec.toNat_and

/-- Settles O15: OR is `aluBinary` of the bitwise OR (R75). -/
theorem orResult : Obligations.OrResult :=
  binaryRule_of_exec (m := .or) (fun _ _ => rfl) rfl (fun _ _ => rfl) (fun _ _ _ => rfl)
    BitVec.toNat_or

/-- Settles O16: XOR is `aluBinary` of the bitwise XOR (R76). -/
theorem xorResult : Obligations.XorResult :=
  binaryRule_of_exec (m := .xor) (fun _ _ => rfl) rfl (fun _ _ => rfl) (fun _ _ _ => rfl)
    BitVec.toNat_xor

/-- Settles O17: NOT is `aluUnary` of the complement within 8 bits (R77). -/
theorem notResult : Obligations.NotResult :=
  unaryRule_of_exec (m := .not) (fun _ _ => rfl) rfl (fun _ => rfl) (fun _ _ => rfl) notByte_toNat

/-- Settles O18: SHL is `aluUnary` of the left shift, which doubles mod 256 (R78). -/
theorem shlResult : Obligations.ShlResult :=
  unaryRule_of_exec (m := .shl) (fun _ _ => rfl) rfl (fun _ => rfl) (fun _ _ => rfl)
    fun x => by rw [shlByte_toNat, Nat.mul_comm]

/-- Settles O19: SHR is `aluUnary` of the logical right shift, which halves (R79). -/
theorem shrResult : Obligations.ShrResult :=
  unaryRule_of_exec (m := .shr) (fun _ _ => rfl) rfl (fun _ => rfl) (fun _ _ => rfl) shrByte_toNat

/-- Settles O20: CMP's meaning is the pc's advance by 3. -/
theorem cmpOnlySkips : Obligations.CmpOnlySkips :=
  ⟨encodes3_of_build (m := .cmp) (fun _ _ => rfl) rfl, fun _ _ s =>
    ⟨s.advance 3, rfl, pcMoves_of_pc_eq rfl, fun r => s.readReg_advance r 3, s.quiet_advance 3⟩⟩

/-! ### The checks of two states that agree on the operands (40_alu.md R82) -/

/-- The two states hold the same values in the registers that the operand bytes `rs` name. -/
def AgreeOn (rs : List Byte) (s s' : State) : Prop :=
  ∀ r, regByte r ∈ rs → s.readReg r = s'.readReg r

theorem divisorOperand_mem (h : divisorOperand i = some b) : b ∈ regOperands i := by
  cases i with
  | div _ _ => cases h; exact List.mem_cons_of_mem _ (List.mem_singleton_self _)
  | mod _ _ => cases h; exact List.mem_cons_of_mem _ (List.mem_singleton_self _)
  | _ => cases h

theorem zeroDivisor_congr (h : AgreeOn (regOperands i) s s') :
    zeroDivisor i s = zeroDivisor i s' := by
  cases hd : divisorOperand i with
  | none => rw [zeroDivisor_of_no_divisor hd, zeroDivisor_of_no_divisor hd]
  | some b =>
    rcases regByte_or_out b with ⟨B, rfl⟩ | hb
    · rw [zeroDivisor_of_register hd, zeroDivisor_of_register hd, h B (divisorOperand_mem hd)]
    · simp [zeroDivisor, hd, regIndex?_eq_none hb]

/-- The operand bytes' check does not look at the state, and the divisor is an operand. -/
theorem instrFault_congr (h : AgreeOn (regOperands i) s s') : instrFault i s = instrFault i s' := by
  rw [instrFault, instrFault, zeroDivisor_congr h]

/-! ### The results of two states that agree on the operands (40_alu.md R82) -/

/-- Both results are next states, and these agree on `rs`. -/
def NextsAgree (rs : List Byte) (o o' : Result) : Prop :=
  ∃ t t', o = .next t ∧ o' = .next t' ∧ AgreeOn rs t t'

theorem AgreeOn.aluWrite (h : AgreeOn rs s s') (A : RegIdx) (v : Byte) (len : Nat) :
    AgreeOn rs (s.aluWrite A v len) (s'.aluWrite A v len) := by
  intro r hr
  by_cases hA : r = A
  · rw [hA, State.readReg_aluWrite_self, State.readReg_aluWrite_self]
  · rw [s.readReg_aluWrite_other v len hA, s'.readReg_aluWrite_other v len hA, h r hr]

theorem AgreeOn.nextsAgree_aluWrite {v v' : Byte} (h : AgreeOn rs s s') (A : RegIdx) (hv : v = v')
    (len : Nat) : NextsAgree rs (.next (s.aluWrite A v len)) (.next (s'.aluWrite A v' len)) :=
  ⟨_, _, rfl, rfl, hv ▸ h.aluWrite A v len⟩

theorem AgreeOn.nextsAgree_takeFault (h : AgreeOn rs s s') (c : FaultCause) (v : Byte) :
    NextsAgree rs (takeFault c v s) (takeFault c v s') :=
  ⟨_, _, rfl, rfl, h⟩

/-- A checked operand fails its check in both states or in none. -/
theorem AgreeOn.nextsAgree_withReg {k k' : RegIdx → Result} (h : AgreeOn rs s s')
    (hk : ∀ A, b = regByte A → NextsAgree rs (k A) (k' A)) :
    NextsAgree rs (withReg b s k) (withReg b s' k') := by
  rcases regByte_or_out b with ⟨A, hA⟩ | hb
  · subst hA
    rw [withReg_regByte, withReg_regByte]
    exact hk A rfl
  · rw [withReg_out s hb, withReg_out s' hb]
    exact h.nextsAgree_takeFault .illegalRegister b

theorem AgreeOn.nextsAgree_aluUnary (h : AgreeOn [a] s s') (g : Byte → Byte) :
    NextsAgree [a] (aluUnary g a s) (aluUnary g a s') := by
  refine h.nextsAgree_withReg fun A hA => h.nextsAgree_aluWrite A ?_ 2
  rw [h A (by simp [hA])]

theorem AgreeOn.nextsAgree_aluBinary (h : AgreeOn [a, b] s s') (g : Byte → Byte → Byte) :
    NextsAgree [a, b] (aluBinary g a b s) (aluBinary g a b s') := by
  refine h.nextsAgree_withReg fun A hA => h.nextsAgree_withReg fun B hB =>
    h.nextsAgree_aluWrite A ?_ 3
  rw [h A (by simp [hA]), h B (by simp [hB])]

theorem AgreeOn.nextsAgree_aluDivide (h : AgreeOn [a, b] s s') (g : Byte → Byte → Byte) :
    NextsAgree [a, b] (aluDivide g a b s) (aluDivide g a b s') := by
  refine h.nextsAgree_withReg fun A hA => h.nextsAgree_withReg fun B hB => ?_
  rw [h A (by simp [hA]), h B (by simp [hB])]
  split
  · exact h.nextsAgree_takeFault .divisionByZero (regByte B)
  · exact h.nextsAgree_aluWrite A rfl 3

/-- Every ALU instruction is one of the shared operations on its operand bytes, or CMP. -/
theorem AgreeOn.nextsAgree_exec (h : AgreeOn (regOperands i) s s') (hi : isAlu i = true) :
    NextsAgree (regOperands i) (exec i s) (exec i s') := by
  cases i with
  | add a b => exact h.nextsAgree_aluBinary addByte
  | sub a b => exact h.nextsAgree_aluBinary subByte
  | mul a b => exact h.nextsAgree_aluBinary mulByte
  | div a b => exact h.nextsAgree_aluDivide divByte
  | mod a b => exact h.nextsAgree_aluDivide modByte
  | inc a => exact h.nextsAgree_aluUnary fun x => addByte x 1
  | dec a => exact h.nextsAgree_aluUnary fun x => subByte x 1
  | cmp a b => exact ⟨s.advance 3, s'.advance 3, rfl, rfl, h⟩
  | and a b => exact h.nextsAgree_aluBinary fun x y => x &&& y
  | not a => exact h.nextsAgree_aluUnary notByte
  | or a b => exact h.nextsAgree_aluBinary fun x y => x ||| y
  | xor a b => exact h.nextsAgree_aluBinary fun x y => x ^^^ y
  | shl a => exact h.nextsAgree_aluUnary shlByte
  | shr a => exact h.nextsAgree_aluUnary shrByte
  | push _ | pop _ | prn _ | call _ | ret | ldi _ _ | halt => cases hi

/-- An instruction that passes its checks records no fault (60_exceptions.md R101, R103). -/
theorem exec_faultCause_of_no_fault (hf : instrFault i s = none) (ht : exec i s = .next t) :
    t.faultCause = s.faultCause := by
  cases exec_cases ht with
  | fault hfault _ => cases hf.symm.trans hfault
  | done _ hdone =>
    rcases hdone.sameStatus_or_halt with hsame | ⟨-, rfl⟩
    · exact hsame.faultCause
    · exact s.stop_faultCause

/-- Settles O21: the checks and the shared operations read nothing but the operand registers. -/
theorem aluDependsOnOperandsAlone : Obligations.AluDependsOnOperandsAlone := by
  intro i s s' hi h
  have hchecks : instrFault i s = instrFault i s' := instrFault_congr h
  refine ⟨hchecks, fun hf => ?_⟩
  obtain ⟨t, t', ht, ht', hagree⟩ := AgreeOn.nextsAgree_exec h hi
  exact ⟨t, t', ht, ht', exec_faultCause_of_no_fault hf ht,
    exec_faultCause_of_no_fault (hchecks.symm.trans hf) ht', hagree⟩

end Sys2Proof.Machine
end

section
/-!
SUPPORT. The stack and control instructions (41_stack_control.md): the store that PUSH and CALL share, said
once for any byte and any next pc (R84, R86), the four rules, and the laws of R88 and R89, which follow
from the rules alone. The statements of 41_stack_control.md are settled here.
-/
namespace Sys2Proof.Machine

variable {s t u : State} {v : Byte} {target : Addr} {m : Mnemonic} {i : Instr} {k n : Nat}

/-! ### The encoding of a 1-byte instruction (30_encoding.md R53) -/

theorem encodes1_of_build (hmk : ∀ a b, m.build a b = i) (hlen : m.format.length = 1) :
    Encodes1 (Config.opcodeMap m) i := by
  intro a b
  rw [← hmk a b, encode_build, hlen]
  exact ⟨decode_opcodeMap m a b, rfl⟩

/-! ### The store of PUSH and CALL (R84, R86) -/

/-- The state in which PUSH and CALL end: the byte `v` in the cell below the old SP, SP on that cell, pc at
`target`. -/
def State.pushByte (s : State) (v : Byte) (target : Addr) : State :=
  ((s.setSp s.pushAddr).memWrite s.pushAddr v).setPc target

@[simp] theorem State.sp_pushByte : (s.pushByte v target).sp = s.pushAddr := s.sp_setSp s.pushAddr

@[simp] theorem State.memRead_pushByte_self : (s.pushByte v target).memRead s.pushAddr = v :=
  State.memRead_memWrite_self _ s.pushAddr v

theorem State.memRead_pushByte_other {x : Addr} (hx : x ≠ s.pushAddr) :
    (s.pushByte v target).memRead x = s.memRead x :=
  State.memRead_memWrite_other (s.setSp s.pushAddr) v hx

theorem State.sameRegsBut_pushByte : SameRegsBut 7 s (s.pushByte v target) := fun _ hr =>
  s.readReg_writeReg_other s.pushAddr hr

theorem State.sameStatus_pushByte : SameStatus s (s.pushByte v target) := ⟨rfl, rfl, rfl⟩

@[simp] theorem State.pushByte_pc : (s.pushByte v target).pc = target := rfl

@[simp] theorem State.pushByte_output : (s.pushByte v target).output = s.output := rfl

/-- PUSH stores the register as it reads after the decrement (R84). -/
theorem exec_push_regByte (A : RegIdx) (s : State) : exec (.push (regByte A)) s =
    .next (s.pushByte (if A = 7 then s.pushAddr else s.readReg A) (s.pcPlus 2)) := by
  rw [← s.readReg_setSp A s.pushAddr]
  exact execPush_regByte A

/-- CALL stores the return address and jumps to the register as it reads after the decrement (R86). -/
theorem exec_call_regByte (A : RegIdx) (s : State) : exec (.call (regByte A)) s =
    .next (s.pushByte (s.pcPlus 2) (if A = 7 then s.pushAddr else s.readReg A)) := by
  rw [← s.readReg_setSp A s.pushAddr]
  exact execCall_regByte A

/-- Settles O22: PUSH is the shared store of x[A], with pc moved past the instruction. -/
theorem pushStores : Obligations.PushStores :=
  ⟨encodes2_of_build (m := .push) (fun _ _ => rfl) rfl, checksA_of_regOperands fun _ => rfl,
    fun A s => ⟨_, exec_push_regByte A s, s.pushAddr_toNat, State.sp_pushByte,
      State.memRead_pushByte_self, fun _ hx => State.memRead_pushByte_other hx,
      pcMoves_of_pc_eq rfl, State.sameRegsBut_pushByte, State.sameStatus_pushByte,
      State.pushByte_output⟩⟩

/-- Settles O24: CALL is the shared store of the return address, with pc at x[A]. -/
theorem callTransfers : Obligations.CallTransfers := by
  refine ⟨encodes2_of_build (m := .call) (fun _ _ => rfl) rfl, checksA_of_regOperands fun _ => rfl,
    fun A s => ⟨_, exec_call_regByte A s, s.pushAddr_toNat, State.sp_pushByte, ?returnAddress,
      fun _ hx => State.memRead_pushByte_other hx, State.pushByte_pc, State.sameRegsBut_pushByte,
      State.sameStatus_pushByte, State.pushByte_output⟩⟩
  case returnAddress => rw [State.memRead_pushByte_self, State.pcPlus_toNat]

/-! ### The load of POP and RET (R85, R87) -/

/-- Settles O23: the increment of x[7] comes after the write of x[A], so POP R7 increments the popped
byte. -/
theorem popLoads : Obligations.PopLoads := by
  refine ⟨encodes2_of_build (m := .pop) (fun _ _ => rfl) rfl, checksA_of_regOperands fun _ => rfl,
    fun A s => ⟨_, execPop_regByte A, ?loaded, ?sp, ?others, pcMoves_of_pc_eq rfl,
      ⟨rfl, rfl, rfl⟩, fun _ => rfl, rfl⟩⟩
  case loaded =>
    intro hA
    rw [State.readReg_advance, State.readReg_setSp, if_neg hA, State.readReg_writeReg_self]
  case sp => rw [State.sp_advance, State.sp_setSp, State.popNext_toNat, State.sp_writeReg]
  case others =>
    intro r hrA hr
    rw [State.readReg_advance, State.readReg_setSp, if_neg hr, State.readReg_writeReg_other s _ hrA]

/-- Settles O25: RET reads no register but SP and checks nothing. -/
theorem retTransfers : Obligations.RetTransfers :=
  ⟨encodes1_of_build (m := .ret) (fun _ _ => rfl) rfl, fun s =>
    ⟨_, rfl, rfl, (congrArg BitVec.toNat (State.sp_setSp _ _)).trans s.popNext_toNat,
      fun _ hr => State.readReg_writeReg_other _ _ hr, ⟨rfl, rfl, rfl⟩, fun _ => rfl, rfl⟩⟩

/-! ### The laws of the stack (R88, R89) -/

/-- The increment of POP and RET undoes the decrement of PUSH and CALL, at SP = 0 too (R83). -/
theorem State.sp_eq_of_pushAddr_succ (h : u.sp.toNat = (s.pushAddr.toNat + 1) % 256) :
    u.sp = s.sp := by
  have hlt := byte_toNat_lt s.sp
  rw [State.pushAddr_toNat] at h
  exact BitVec.eq_of_toNat_eq (by omega)

theorem SameRegsBut.sameRegs (h : SameRegsBut 7 s t) (hsp : t.sp = s.sp) : SameRegs s t := by
  intro r
  by_cases hr : r = 7
  · rw [hr]; exact hsp
  · exact h r hr

theorem PcMoves.trans (h : PcMoves k s t) (h' : PcMoves n t u) : PcMoves (k + n) s u := by
  unfold PcMoves at *
  omega

/-- Settles O26 from the rules of PUSH and POP: for A = 7 the popped byte is the address that PUSH R7
stored, and so it is the decremented SP that is incremented for every A. -/
theorem pushPopRoundTrip : Obligations.PushPopRoundTrip := by
  intro A s
  obtain ⟨-, -, hpush⟩ := pushStores
  obtain ⟨-, -, hpop⟩ := popLoads
  obtain ⟨t, ht, -, htsp, htop, htmem, htpc, htregs, -, -⟩ := hpush A s
  obtain ⟨u, hu, huA, husp, huregs, hupc, huquiet⟩ := hpop A t
  rw [htsp, htop] at huA husp
  have hsp : u.sp = s.sp := by
    refine State.sp_eq_of_pushAddr_succ ?_
    by_cases hA : A = 7 <;> simpa [hA] using husp
  have hregs : SameRegsBut 7 s u := by
    intro r hr
    by_cases hrA : r = A
    · subst hrA
      rw [huA hr, if_neg hr]
    · rw [huregs r hrA hr, htregs r hr]
  exact ⟨t, u, ht, hu, hregs.sameRegs hsp, htpc.trans hupc, (huquiet.memory _).trans htop,
    fun x hx => (huquiet.memory x).trans (htmem x hx)⟩

/-- Settles O27 from the rules of CALL and RET. -/
theorem callRetRoundTrip : Obligations.CallRetRoundTrip := by
  intro A s
  obtain ⟨-, -, hcall⟩ := callTransfers
  obtain ⟨-, hret⟩ := retTransfers
  obtain ⟨t, ht, -, htsp, htop, -⟩ := hcall A s
  refine ⟨t, ht, fun u husp hutop => ?_⟩
  obtain ⟨v, hv, hvpc, hvsp, -⟩ := hret u
  rw [husp, htsp] at hvsp
  refine ⟨v, hv, ?_, State.sp_eq_of_pushAddr_succ hvsp⟩
  rw [hvpc, hutop, htsp, htop]

/-- Settles O28 from the rules of PUSH and RET. -/
theorem pushRetJumps : Obligations.PushRetJumps := by
  intro A s
  obtain ⟨-, -, hpush⟩ := pushStores
  obtain ⟨-, hret⟩ := retTransfers
  obtain ⟨t, ht, -, htsp, htop, -, -, htregs, -⟩ := hpush A s
  obtain ⟨u, hu, hupc, husp, huregs, -⟩ := hret t
  rw [htsp] at hupc husp
  have hregs : SameRegsBut 7 s u := fun r hr => (huregs r hr).trans (htregs r hr)
  exact ⟨t, u, ht, hu, hupc.trans htop, hregs.sameRegs (State.sp_eq_of_pushAddr_succ husp)⟩

end Sys2Proof.Machine
end

section
/-!
SUPPORT. Load, output and halt (42_load_io_halt.md): the three rules, the output port's event against what a
step appends (R91, R92), and what every run inherits from a step. The statements of 42_load_io_halt.md are
settled here.
-/
namespace Sys2Proof.Machine

variable {i : Instr} {s t : State} {k : Nat}

/-! ### LDI and PRN (R90, R91) -/

/-- LDI ends as R66's sequence does, with the immediate in the place of a result. -/
theorem exec_ldi_regByte (A : RegIdx) (imm : Byte) (s : State) :
    exec (.ldi (regByte A) imm) s = .next (s.aluWrite A imm 3) := execLdi_regByte A imm

/-- Settles O29: the operand check reads A alone, so every immediate is legal. -/
theorem ldiLoads : Obligations.LdiLoads :=
  ⟨encodes3_of_build (m := .ldi) (fun _ _ => rfl) rfl,
    fun _ => checksA_of_regOperands fun _ => rfl,
    fun A imm s => ⟨_, exec_ldi_regByte A imm s, s.readReg_aluWrite_self A imm 3,
      pcMoves_of_pc_eq rfl, fun _ hr => s.readReg_aluWrite_other imm 3 hr, s.quiet_aluWrite A imm 3⟩⟩

/-- Settles O30: PRN is one emit of x[A] and the pc's advance. -/
theorem prnEmits : Obligations.PrnEmits :=
  ⟨encodes2_of_build (m := .prn) (fun _ _ => rfl) rfl, checksA_of_regOperands fun _ => rfl,
    fun A s => ⟨_, execPrn_regByte A, s.emit_output (s.readReg A), pcMoves_of_pc_eq rfl,
      fun r => s.readReg_emit r (s.readReg A),
      fun x => s.memRead_emit (s.readReg A) x, ⟨rfl, rfl, rfl⟩⟩⟩

/-! ### From one step to a run (70_reset_and_hazards.md R114) -/

/-- A run of `k + 1` steps that answers a state took a step first. -/
theorem core_run_succ (h : Sys2Proof.core.run (k + 1) s = .next t) :
    ∃ u, step s = .next u ∧ Sys2Proof.core.run k u = .next t := by
  simp only [Host.Core.run] at h
  split at h
  · next u hu => exact ⟨u, hu, h⟩
  · cases h
  · cases h

/-- A relation that holds of every state to itself, and that every step can be put in front of, holds
along every run. -/
theorem core_run_induction {R : State → State → Prop} (hrefl : ∀ s, R s s)
    (hstep : ∀ s u t, step s = .next u → R u t → R s t)
    (h : Sys2Proof.core.run k s = .next t) : R s t := by
  induction k generalizing s with
  | zero =>
    obtain rfl : s = t := by injection h
    exact hrefl s
  | succ k ih =>
    obtain ⟨u, hu, hrun⟩ := core_run_succ h
    exact hstep s u t hu (ih hrun)

/-- Whatever state a run from a stopped CORE answers is the state it began in. -/
theorem core_run_of_stopped (hs : ¬ s.Runs) (h : Sys2Proof.core.run k s = .next t) : t = s := by
  refine core_run_induction (R := fun s t => ¬ s.Runs → t = s) (fun _ _ => rfl) ?_ h hs
  intro s u t hu ih hs
  obtain rfl : s = u := by injection (stepUnder_of_stopped hs _).symm.trans hu
  exact ih hs

/-! ### HALT (R93) -/

theorem State.stop_not_runs (s : State) : ¬ s.stop.Runs := fun h => nomatch h.1

@[simp] theorem State.stop_control (s : State) : s.stop.control = .halted := rfl

/-- Settles O31: HALT's meaning is `State.stop`, and a stopped CORE stays as it is. -/
theorem haltStops : Obligations.HaltStops := by
  refine ⟨encodes1_of_build (m := .halt) (fun _ _ => rfl) rfl, fun s => ⟨s.stop, rfl, rfl, rfl, rfl,
    rfl, s.readReg_stop, s.memRead_stop, rfl, s.stop_control, fun k u h => ?_⟩⟩
  obtain rfl := core_run_of_stopped s.stop_not_runs h
  exact ⟨rfl, State.transactions_of_stopped s.stop_not_runs⟩

/-! ### The event on the output port (R91, R92; 10_state.md R29) -/

theorem latchEvent_eq_some_iff {l : Latch} {v : Byte} : latchEvent l s = some v ↔
    ∃ A : RegIdx, v = s.readReg A ∧ decode l.opcode l.opA l.opB = .ok (.prn (regByte A)) := by
  constructor
  · intro h
    unfold latchEvent at h
    split at h
    · next a hd =>
      rcases regByte_or_out a with ⟨A, rfl⟩ | ha
      · rw [regIndex?_regByte] at h
        exact ⟨A, (Option.some.inj h).symm, hd⟩
      · simp [regIndex?_eq_none ha] at h
    · cases h
  · rintro ⟨A, rfl, hd⟩
    simp [latchEvent, hd]

theorem State.outEvent_of_runs (hs : s.Runs) : s.outEvent = latchEvent (fetch s) s := by
  simp [State.outEvent, State.control_of_runs hs]

theorem State.outEvent_of_stopped (hs : ¬ s.Runs) : s.outEvent = none := by
  unfold State.outEvent
  cases hc : s.control with
  | running => exact absurd (State.runs_of_control hc) hs
  | halted => rfl
  | faulted => rfl

theorem State.outEvent_eq_some_iff {v : Byte} : s.outEvent = some v ↔
    s.Runs ∧ ∃ A : RegIdx, v = s.readReg A ∧
      decode (fetch s).opcode (fetch s).opA (fetch s).opB = .ok (.prn (regByte A)) := by
  by_cases hs : s.Runs
  · simp [State.outEvent_of_runs hs, latchEvent_eq_some_iff, hs]
  · simp [State.outEvent_of_stopped hs, hs]

/-- The port shows no event unless the fetched instruction is a PRN that passes its checks. -/
theorem State.outEvent_eq_none
    (h : ∀ A : RegIdx,
      decode (fetch s).opcode (fetch s).opA (fetch s).opB ≠ .ok (.prn (regByte A))) :
    s.outEvent = none := by
  refine Option.eq_none_iff_forall_ne_some.2 fun v hv => ?_
  obtain ⟨-, A, -, hd⟩ := State.outEvent_eq_some_iff.1 hv
  exact h A hd

/-! ### What a step appends (R92; 10_state.md R28) -/

theorem instrFault_prn_regByte (A : RegIdx) (s : State) : instrFault (.prn (regByte A)) s = none :=
  (instrFault_of_registers (by simp [regOperands])).trans (zeroDivisor_of_no_divisor rfl)

/-- PRN appends x[A]; no other completing instruction touches the output. -/
theorem Completes.output_cases (h : Completes i s t) :
    (∃ A, i = .prn (regByte A) ∧ t.output = s.output ++ [s.readReg A]) ∨
    (∀ A, i ≠ .prn (regByte A)) ∧ t.output = s.output := by
  cases h with
  | prn hi => exact .inl ⟨_, hi, rfl⟩
  | alu v hi hr => exact .inr ⟨(by rintro A rfl; cases hi), rfl⟩
  | cmp hi => subst hi; exact .inr ⟨nofun, rfl⟩
  | push hi => subst hi; exact .inr ⟨nofun, rfl⟩
  | pop hi => subst hi; exact .inr ⟨nofun, rfl⟩
  | call hi => subst hi; exact .inr ⟨nofun, rfl⟩
  | ret hi => subst hi; exact .inr ⟨nofun, rfl⟩
  | ldi hi => subst hi; exact .inr ⟨nofun, rfl⟩
  | halt hi => subst hi; exact .inr ⟨nofun, rfl⟩

/-- By the cases of a step: a stopped CORE and a taken fault show no event and leave the output, and a
completing instruction appends its event, if it is a PRN. -/
theorem step_output (h : step s = .next t) : t.output = s.output ++ s.outEvent.toList := by
  cases step_cases h with
  | stopped hs => simp [State.outEvent_of_stopped hs]
  | fault hs hf _ =>
    have hnone : s.outEvent = none := State.outEvent_eq_none fun A hd => by
      simp [firstFault_of_ok hd, instrFault_prn_regByte] at hf
    simp [hnone]
  | done hs hd _ ht =>
    rcases ht.output_cases with ⟨A, rfl, hout⟩ | ⟨hne, hout⟩
    · rw [hout, State.outEvent_eq_some_iff.2 ⟨hs, A, rfl, hd⟩]
      rfl
    · have hnone : s.outEvent = none := State.outEvent_eq_none fun A hA =>
        hne A (Except.ok.inj (hd.symm.trans hA))
      simp [hout, hnone]

/-- Settles O48: what a step appends is the port's event, and the prefix order carries it along a run. -/
theorem outputEventsAreAppended : Obligations.OutputEventsAreAppended := by
  refine ⟨fun s t => step_output, fun s v => State.outEvent_eq_some_iff, fun s t h => ?port,
    fun k s t => core_run_induction (R := fun s t => s.output <+: t.output)
      (fun s => List.prefix_rfl) fun s u t hu => ?grows⟩
  case port =>
    have hout := step_output h
    cases he : s.outEvent with
    | none => simp [State.outPort, hout, he]
    | some v => simp [State.outPort, hout, he]
  case grows => exact (step_output hu ▸ List.prefix_append _ _ : s.output <+: u.output).trans

end Sys2Proof.Machine
end

section
/-!
SUPPORT. Faults (60_exceptions.md): the step of a RUNNING CORE against its checks (R101 to R103), what a
failed check records (R94 to R97), the model option `ADDR_OVERFLOW = fault` (R99), and the codes on the
status port (R94). The statements of 60_exceptions.md are settled here.
-/
namespace Sys2Proof.Machine

variable {i : Instr} {s t : State} {l : Latch} {c : FaultCause} {v b : Byte}

/-! ### The first failed check of a RUNNING CORE (R101 to R103) -/

/-- A step always answers a next state; `step_cases` says which. -/
theorem exists_step_eq_next (s : State) : ∃ t, step s = .next t := by
  by_cases hs : s.Runs
  · rw [step_of_runs hs]
    cases hd : decode (fetch s).opcode (fetch s).opA (fetch s).opB with
    | error e => exact ⟨_, runLatch_of_error hd⟩
    | ok i =>
      obtain ⟨t, ht, -⟩ := exec_answers i s
      exact ⟨t, (runLatch_of_ok hd).trans ht⟩
  · exact ⟨s, stepUnder_of_stopped hs _⟩

/-- A completing instruction leaves the fault registers alone. -/
theorem Completes.sameFault (h : Completes i s t) :
    t.faultCause = s.faultCause ∧ t.faultInfo = s.faultInfo := by
  rcases h.sameStatus_or_halt with hsame | ⟨-, rfl⟩
  · exact ⟨hsame.faultCause, hsame.faultInfo⟩
  · exact ⟨s.stop_faultCause, s.stop_faultInfo⟩

theorem State.control_faulted (hs : s.Runs) (hc : c ≠ .none) :
    (s.faulted c v).control = .faulted := by
  simp [State.control, hs.1, hc]

/-- Settles O36, by the cases of a step: a RUNNING CORE takes a failed check, or completes. -/
theorem firstFailedCheckIsTaken : Obligations.FirstFailedCheckIsTaken := by
  intro s hs
  obtain ⟨t, h⟩ := exists_step_eq_next s
  cases step_cases h with
  | stopped hn => exact absurd hs hn
  | fault _ hf hc =>
    rw [hf]
    exact ⟨hc, h, State.control_faulted hs hc⟩
  | done _ _ hf ht =>
    rw [hf]
    obtain ⟨hcause, hinfo⟩ := ht.sameFault
    exact ⟨t, h, hcause.trans hs.2, hinfo⟩

/-! ### What a failed check records (R94 to R97) -/

/-- What each check records when it fails, and what it found. -/
inductive FailedCheck (l : Latch) (s : State) : FaultCause → Byte → Prop
  | opcode (hop : l.opcode ∉ legalOpcodes) : FailedCheck l s .illegalInstruction l.opcode
  | operand {b : Byte} (hb : 8 ≤ b.toNat) (hposition : b = l.opA ∨ b = l.opB) :
      FailedCheck l s .illegalRegister b
  | divisor {B : RegIdx} (h0 : s.readReg B = 0) (hop : l.opcode ∈ ([0xA3, 0xA4] : List Byte)) :
      FailedCheck l s .divisionByZero (regByte B)

theorem not_mem_legalOpcodes_of_error {op a b : Byte} {e : DecodeError}
    (h : decode op a b = .error e) : op ∉ legalOpcodes := fun hop => by
  obtain ⟨m, rfl⟩ := mem_legalOpcodes_iff.1 hop
  cases (decode_opcodeMap m a b).symm.trans h

/-- The operand bytes of a decoded instruction are among the two fetched. -/
theorem mem_operandBytes_of_decode {op opA opB : Byte} (hd : decode op opA opB = .ok i)
    (hb : b ∈ i.operandBytes) : b = opA ∨ b = opB := by
  obtain ⟨m, -, rfl⟩ := decode_ok hd
  rw [operandBytes_build] at hb
  simpa using List.mem_of_mem_take hb

/-- The two instructions that check a divisor. -/
theorem mnemonic_of_zeroDivisor {r : FaultRecord} (h : zeroDivisor i s = some r) :
    i.mnemonic = .div ∨ i.mnemonic = .mod := by
  cases i with
  | div _ _ => exact .inl rfl
  | mod _ _ => exact .inr rfl
  | _ => cases h

theorem failedCheck_of_instrFault (hd : decode l.opcode l.opA l.opB = .ok i)
    (hf : instrFault i s = some (c, v)) : FailedCheck l s c v := by
  cases hwf : WellFormed i with
  | false =>
    obtain ⟨b, hfault, hb, hposition⟩ := instrFault_of_illFormed s hwf
    have hmem : b ∈ i.operandBytes := by
      rcases hposition with ⟨rest, hbytes⟩ | ⟨a, -, hbytes⟩ <;> simp [hbytes]
    cases hfault.symm.trans hf
    exact .operand hb (mem_operandBytes_of_decode hd hmem)
  | true =>
    rw [instrFault_of_wellFormed hwf] at hf
    obtain ⟨B, h0, rfl, rfl⟩ := zeroDivisor_eq_some hf
    refine .divisor h0 ?_
    rw [opcode_of_decode hd]
    rcases mnemonic_of_zeroDivisor hf with hm | hm <;> rw [hm] <;> decide

theorem failedCheck_of_firstFault (hf : firstFault l s = some (c, v)) : FailedCheck l s c v := by
  cases hd : decode l.opcode l.opA l.opB with
  | error e =>
    cases (firstFault_of_error hd).symm.trans hf
    exact .opcode (not_mem_legalOpcodes_of_error hd)
  | ok i => exact failedCheck_of_instrFault hd ((firstFault_of_ok hd).symm.trans hf)

/-- The fault registers of an honest status: clear, or as a failed check at pc records them. -/
theorem State.HonestStatus.fault_cases (h : s.HonestStatus) :
    (s.faultCause = .none ∧ s.faultInfo = 0) ∨
      FailedCheck (fetch s) s s.faultCause s.faultInfo := by
  unfold State.HonestStatus at h
  split at h
  · exact .inl h
  · obtain ⟨hcause, hinfo, -⟩ := h
    exact .inl ⟨hcause, hinfo⟩
  · exact .inr (failedCheck_of_firstFault h)

/-- Settles O35: the invariant ties the fault registers to a failed check at pc, and each clause is
the check of its cause. -/
theorem faultInfoMeaning : Obligations.FaultInfoMeaning := by
  rintro s ⟨-, hstatus⟩
  rcases hstatus.fault_cases with ⟨hcause, hinfo⟩ | hcheck
  · simp [hcause, hinfo]
  · generalize s.faultCause = c, s.faultInfo = v at hcheck
    cases hcheck with
    | opcode hop => exact ⟨nofun, fun _ => ⟨rfl, hop⟩, nofun, nofun⟩
    | operand hb hposition => exact ⟨nofun, nofun, nofun, fun _ => ⟨hb, hposition⟩⟩
    | divisor h0 hop => exact ⟨nofun, nofun, fun _ => ⟨_, rfl, h0, hop⟩, nofun⟩

/-! ### The model option `ADDR_OVERFLOW = fault` (R99) -/

theorem stepUnder_of_runs (hs : s.Runs) (option : AddrOverflow) :
    stepUnder option s = runUnder option s := by
  simp [stepUnder, State.control_of_runs hs]

/-- The option makes no difference to a stopped CORE. -/
theorem stepUnder_eq_step_of_stopped (hs : ¬ s.Runs) (option : AddrOverflow) :
    stepUnder option s = step s :=
  (stepUnder_of_stopped hs option).trans (stepUnder_of_stopped hs _).symm

/-- A guard answers what it guards, or stops the model. -/
theorem guardAddr_cases (option : AddrOverflow) (leaves : Bool) (o : Result) :
    guardAddr option leaves o = o ∨ guardAddr option leaves o = .fault .addressOverflow := by
  cases option with
  | wrap => exact .inl rfl
  | fault =>
    cases leaves with
    | false => exact .inl rfl
    | true => exact .inr rfl

theorem guardCompleted_cases (option : AddrOverflow) (leaves : Bool) (o : Result) :
    guardCompleted option leaves o = o ∨
      guardCompleted option leaves o = .fault .addressOverflow := by
  cases o with
  | next t =>
    rw [guardCompleted]
    split
    · exact guardAddr_cases option leaves (.next t)
    · exact .inl rfl
  | fault r => exact .inl rfl
  | refused r => exact .inl rfl

theorem runUnder_cases (option : AddrOverflow) (s : State) :
    runUnder option s = runLatch (fetch s) s ∨ runUnder option s = .fault .addressOverflow := by
  unfold runUnder
  rcases guardAddr_cases option (fetchLeaves s) _ with h | h
  · rw [h]
    exact guardCompleted_cases option _ _
  · exact .inr h

/-- Where no address leaves 0..255 the guards do nothing. -/
theorem guardAddr_false (option : AddrOverflow) (o : Result) : guardAddr option false o = o := by
  cases option <;> rfl

theorem guardCompleted_false (option : AddrOverflow) (o : Result) :
    guardCompleted option false o = o := by
  cases o with
  | next t => rw [guardCompleted, guardAddr_false, ite_self]
  | fault r => rfl
  | refused r => rfl

theorem runUnder_of_stays (option : AddrOverflow) (hfetch : fetchLeaves s = false)
    (hlatch : latchLeaves (fetch s) s = false) : runUnder option s = runLatch (fetch s) s := by
  rw [runUnder, hfetch, guardAddr_false, hlatch, guardCompleted_false]

theorem runUnder_fault_of_fetchLeaves (h : fetchLeaves s = true) :
    runUnder .fault s = .fault .addressOverflow := by
  rw [runUnder, h]
  rfl

/-- The fetch reads two bytes past pc. -/
theorem fetchLeaves_eq_pcLeaves (s : State) : fetchLeaves s = pcLeaves 2 s := rfl

theorem pcLeaves_eq_true {n : Nat} (h : 255 < s.pc.toNat + n) : pcLeaves n s = true :=
  decide_eq_true h

theorem pcLeaves_eq_false {n : Nat} (h : s.pc.toNat + n ≤ 255) : pcLeaves n s = false :=
  decide_eq_false (Nat.not_lt.2 h)

/-- Away from both ends of the address space, of pc and of SP, only POP can leave it: the SP it
increments may be the byte it has popped (R85). -/
theorem execLeaves_eq_false (hpc : s.pc.toNat ≤ 252) (h0 : s.sp ≠ 0) (h255 : s.sp ≠ 255)
    (hpop : ∀ a, i ≠ .pop a) : execLeaves i s = false := by
  have hpc2 : pcLeaves 2 s = false := pcLeaves_eq_false (by omega)
  have hpc3 : pcLeaves 3 s = false := pcLeaves_eq_false (by omega)
  have hdec : spDecLeaves s = false := decide_eq_false h0
  have hinc : spIncLeaves s = false := decide_eq_false h255
  cases i with
  | pop a => exact absurd rfl (hpop a)
  | push _ | call _ => simp [execLeaves, hdec, hpc2]
  | ret => exact hinc
  | halt => rfl
  | inc _ | dec _ | not _ | shl _ | shr _ | prn _ => exact hpc2
  | add _ _ | sub _ _ | mul _ _ | div _ _ | mod _ _ | cmp _ _ | and _ _ | or _ _ | xor _ _
  | ldi _ _ => exact hpc3

theorem latchLeaves_eq_false
    (h : ∀ i, decode l.opcode l.opA l.opB = .ok i → execLeaves i s = false) :
    latchLeaves l s = false := by
  unfold latchLeaves
  split
  · next i hd => exact h i hd
  · rfl

/-- Settles O43: the guards answer what they guard or stop, and they do nothing where no address
leaves. -/
theorem addressOverflowOption : Obligations.AddressOverflowOption := by
  refine ⟨fun _ => rfl, fun s => ?eitherOr, fun s hs hpc => ?stops,
    fun s hpc h0 h255 hpop => ?runs, fun s hs => stepUnder_of_stopped hs .fault⟩
  case eitherOr =>
    by_cases hs : s.Runs
    · rw [stepUnder_of_runs hs, step_of_runs hs]
      exact runUnder_cases .fault s
    · exact .inl (stepUnder_eq_step_of_stopped hs .fault)
  case stops =>
    have hfetch : fetchLeaves s = true :=
      (fetchLeaves_eq_pcLeaves s).trans (pcLeaves_eq_true (by omega))
    rw [stepUnder_of_runs hs, runUnder_fault_of_fetchLeaves hfetch]
  case runs =>
    by_cases hs : s.Runs
    · have hfetch : fetchLeaves s = false :=
        (fetchLeaves_eq_pcLeaves s).trans (pcLeaves_eq_false (by omega))
      have hlatch : latchLeaves (fetch s) s = false := latchLeaves_eq_false fun i hd =>
        execLeaves_eq_false hpc h0 h255 fun a ha => hpop a (ha ▸ hd)
      rw [stepUnder_of_runs hs, runUnder_of_stays .fault hfetch hlatch, step_of_runs hs]
    · exact stepUnder_eq_step_of_stopped hs .fault

/-! ### Codes and status port (R94; 10_state.md R23, R29) -/

/-- The cause that a code stands for. -/
def FaultCause.ofCode (code : BitVec 2) : FaultCause :=
  if code = 0 then .none
  else if code = 1 then .illegalInstruction
  else if code = 2 then .divisionByZero
  else .illegalRegister

theorem FaultCause.ofCode_code (c : FaultCause) : FaultCause.ofCode c.code = c := by
  cases c <;> rfl

theorem FaultCause.code_injective : Function.Injective FaultCause.code :=
  Function.LeftInverse.injective FaultCause.ofCode_code

theorem State.statusPort_running_iff (s : State) :
    s.statusPort.running = 1 ↔ s.running = true := by
  cases h : s.running <;> simp [State.statusPort, h]

/-- Settles O34: a code gives its cause back, and the status port is read off the registers. -/
theorem faultCodes : Obligations.FaultCodes :=
  ⟨rfl, rfl, rfl, rfl, fun _ _ h => FaultCause.code_injective h,
    fun s => ⟨rfl, rfl, s.statusPort_running_iff⟩⟩

end Sys2Proof.Machine
end

section
/-!
SUPPORT. Steps and runs as a whole, reset and the reference FSM (70_reset_and_hazards.md): every step answers
(R119), a stopped CORE stays as it is (R114), a RUNNING one runs what it fetched (R116), the reset state
(R112), and the FSM of R121 against the step, with reset between its micro-steps (R113). The statements of
70_reset_and_hazards.md are settled here.
-/
namespace Sys2Proof.Machine

variable {s t u : State} {k n : Nat} {l : Latch} {p : FaultRecord} {d : Vector Byte 7}

/-! ### Steps and runs (R114, R116, R119) -/

/-- A step that answers `u` leaves the rest of the run to `u`. -/
theorem core_run_of_step (h : step s = .next u) :
    Sys2Proof.core.run (k + 1) s = Sys2Proof.core.run k u := by
  have hcore : Sys2Proof.core.step s = .next u := h
  simp only [Host.Core.run, hcore]

/-- No run stops with a fault of the model or a refusal, since no step does. -/
theorem exists_core_run_eq_next (k : Nat) (s : State) : ∃ t, Sys2Proof.core.run k s = .next t := by
  induction k generalizing s with
  | zero => exact ⟨s, rfl⟩
  | succ k ih =>
    obtain ⟨u, hu⟩ := exists_step_eq_next s
    obtain ⟨t, ht⟩ := ih u
    exact ⟨t, (core_run_of_step hu).trans ht⟩

/-- Settles O38: every instruction answers a next state, and induction on the length carries it to runs. -/
theorem stepAlwaysAnswers : Obligations.StepAlwaysAnswers :=
  ⟨exists_step_eq_next, exists_core_run_eq_next⟩

theorem State.not_runs_iff : ¬ s.Runs ↔ s.running = false ∨ s.faultCause ≠ .none := by
  rw [State.Runs, not_and_or, Bool.not_eq_true]

/-- Settles O40: a run from a stopped CORE answers the state it began in, whose ports are idle. -/
theorem stoppedIsTerminal : Obligations.StoppedIsTerminal := by
  intro s hstop k t h
  have hs : ¬ s.Runs := State.not_runs_iff.2 hstop
  obtain rfl := core_run_of_stopped hs h
  exact ⟨rfl, State.transactions_of_stopped hs, State.outEvent_of_stopped hs⟩

/-- Settles O39: a RUNNING CORE runs its latch, which holds the bytes at pc, pc + 1 and pc + 2. -/
theorem stepRunsDecoded : Obligations.StepRunsDecoded := by
  refine fun s hs => ⟨fun i hd => step_of_decode hs hd, fun hne => ?_⟩
  cases hd : decode (fetch s).opcode (fetch s).opA (fetch s).opB with
  | ok i => exact absurd hd (hne i)
  | error e => exact (step_of_runs hs).trans (runLatch_of_error hd)

/-! ### The reset state (R112; 10_state.md R30) -/

theorem State.resetOf_runs (draw : Vector Byte 7) (mem : Memory) :
    (State.resetOf draw mem).Runs := ⟨rfl, rfl⟩

/-- Registers x[0] to x[6] hold the draw. -/
theorem State.readReg_resetOf (draw : Vector Byte 7) (mem : Memory) (i : Fin 7) :
    (State.resetOf draw mem).readReg i.castSucc = draw[i] := by
  fin_cases i <;> rfl

/-- The reset state has no fault recorded, so the memory decides the invariant. -/
theorem State.resetOf_inv {mem : Memory} (draw : Vector Byte 7) (hmem : Memory.wf mem) :
    (State.resetOf draw mem).Inv :=
  ⟨hmem, (State.honestStatus_of_runs (State.resetOf_runs draw mem)).2 rfl⟩

/-- Settles O42: reset from any state and `State.reset` are `State.resetOf` over a canonical memory. -/
theorem resetMeetsInvariant : Obligations.ResetMeetsInvariant :=
  ⟨fun draw _ hmem => State.resetOf_inv draw hmem, State.resetOf_inv Config.regInit Memory.nil_wf⟩

/-- Settles O50: each register is the field `State.resetOf` gives it. -/
theorem resetValues : Obligations.ResetValues := fun draw s =>
  ⟨rfl, rfl, rfl, rfl, rfl, rfl, State.readReg_resetOf draw s.mem, rfl,
    State.control_of_runs (State.resetOf_runs draw s.mem)⟩

/-! ### Boundary phases (10_state.md R24) -/

theorem State.boundary_of_runs (hs : s.Runs) : s.boundary = .fetch0 := by
  simp [State.boundary, State.control_of_runs hs]

theorem State.boundary_stop (s : State) : s.stop.boundary = .halted := rfl

theorem State.boundary_faulted {c : FaultCause} {v : Byte} (hs : s.Runs) (hc : c ≠ .none) :
    (s.faulted c v).boundary = .faulted := by
  simp [State.boundary, State.control_faulted hs hc]

/-! ### The micro-steps of one instruction (R121) -/

/-- The three fetch micro-steps fill the whole latch, whatever it held. -/
theorem Micro.run_fetch (n : Nat) : Micro.run (n + 3) ⟨s, .fetch0, l, p, d⟩ =
    Micro.run n ⟨s, .decode, fetch s, p, d⟩ := rfl

/-- DECODE has no effect on the architectural state. -/
theorem Micro.decodeNext_core (m : Micro) : m.decodeNext.core = m.core := by
  unfold Micro.decodeNext
  split
  · rfl
  · split <;> rfl

/-- DECODE, then FAULT. -/
theorem Micro.run_decode_of_fault {r : FaultRecord} (hf : firstFault l s = some r) :
    Micro.run 2 ⟨s, .decode, l, p, d⟩ = ⟨s.faulted r.1 r.2, .faulted, l, r, d⟩ := by
  simp [Micro.run, Micro.step, Micro.decodeNext, hf]

/-- DECODE, then HALT. -/
theorem Micro.run_decode_of_halt (hf : firstFault l s = none)
    (hd : decode l.opcode l.opA l.opB = .ok .halt) :
    Micro.run 2 ⟨s, .decode, l, p, d⟩ = ⟨s.stop, .halted, l, p, d⟩ := by
  simp [Micro.run, Micro.step, Micro.decodeNext, hf, hd]

/-- DECODE, then EXEC. -/
theorem Micro.run_decode_of_exec (hf : firstFault l s = none)
    (hd : decode l.opcode l.opA l.opB ≠ .ok .halt) (ht : runLatch l s = .next t) :
    Micro.run 2 ⟨s, .decode, l, p, d⟩ = ⟨t, .fetch0, l, p, d⟩ := by
  simp [Micro.run, Micro.step, Micro.decodeNext, Micro.execNext, hf, hd, ht]

/-- Settles O52, by the cases of a step: after the fetch, DECODE sends a failed check to FAULT, HALT to
HALT, and every other instruction to EXEC, which does what the step does. -/
theorem fsmRefinesStep : Obligations.FsmRefinesStep := by
  intro s t latch pending draw hs h
  rw [Micro.run_fetch 2]
  cases step_cases h with
  | stopped hn => exact absurd hs hn
  | fault _ hf hc =>
    rw [Micro.run_decode_of_fault hf]
    exact ⟨rfl, (State.boundary_faulted hs hc).symm⟩
  | @done i _ _ hd hf ht =>
    by_cases hi : i = .halt
    · subst hi
      obtain rfl : s.stop = t := by injection (step_of_decode hs hd).symm.trans h
      rw [Micro.run_decode_of_halt hf hd]
      exact ⟨rfl, s.boundary_stop.symm⟩
    · have hne : decode (fetch s).opcode (fetch s).opA (fetch s).opB ≠ .ok .halt := fun hhalt =>
        hi (Except.ok.inj (hd.symm.trans hhalt))
      have hsame : SameStatus s t := ht.sameStatus_or_halt.resolve_right fun hhalt => hi hhalt.1
      rw [Micro.run_decode_of_exec hf hne ((step_of_runs hs).symm.trans h)]
      exact ⟨rfl, (State.boundary_of_runs (hsame.runs hs)).symm⟩

/-! ### Reset between micro-steps (R113; 92_eei_decisions.md D23) -/

/-- Before the fifth micro-step the architectural state is that of the instruction boundary. -/
theorem Micro.core_run_of_lt (hn : n < 5) : (Micro.run n ⟨s, .fetch0, l, p, d⟩).core = s := by
  match n, hn with
  | 0, _ | 1, _ | 2, _ | 3, _ => rfl
  | 4, _ => exact Micro.decodeNext_core ⟨s, .decode, fetch s, p, d⟩

/-- The first micro-step after the reset input resets the architectural state there is. -/
theorem Micro.step_assertReset (m : Micro) (draw : Vector Byte 7) :
    (m.assertReset draw).step = ⟨m.core.applyReset draw, .fetch0, m.latch, m.pending, draw⟩ := rfl

/-- Settles O53: the fifth micro-step makes the whole effect, so a reset before it meets the old memory
and a reset after it the new one; the one store is that of PUSH or CALL. -/
theorem resetDuringInstruction : Obligations.ResetDuringInstruction := by
  intro s t latch pending draw draw' n hs h hn m
  rw [m.step_assertReset]
  refine ⟨?core, rfl, fun x hx => ?frame⟩
  case core =>
    rcases Nat.lt_or_eq_of_le hn with hlt | rfl
    · exact .inl (congrArg (State.applyReset · draw') (Micro.core_run_of_lt hlt))
    · obtain ⟨hcore, -⟩ := fsmRefinesStep s t latch pending draw hs h
      exact .inr (congrArg (State.applyReset · draw') hcore)
  case frame =>
    by_contra hne
    obtain ⟨-, -, hpush⟩ := onlyPushAndCallStore s t x h hne
    exact hx hpush

end Sys2Proof.Machine
end
